-- ==== Sys2Proof/Word.lean ====
section
/-! DEFINITION. The widths of the values the block works on (00_scope.md R6, 10_state.md R26). -/

namespace Sys2Proof

/-- "Byte": an 8-bit unsigned quantity, bits 7 (most significant) to 0 (R13, R26). -/
abbrev Byte := BitVec 8

/-- "Word": a 16-bit unsigned quantity: high byte in bits 15:8, low byte in bits 7:0 (R26, R41). -/
abbrev Word := BitVec 16

/-- "Double-word": a 32-bit unsigned quantity: high word in bits 31:16, low word in bits 15:0 (R26, R41).
The ports A, B, Y and Z have this width (R22), and so has a float bit pattern. -/
abbrev DWord := BitVec 32

end Sys2Proof
end

