-- ==== Sys2Proof/Syntax.lean ====
section
/-! DEFINITION. The command format and the instructions (30_encoding.md R60 to R62, R68). -/

namespace Sys2Proof

/-- The four fields of the one command format `CMD8` (R60), before anything is checked. -/
structure Cmd8 where
  /-- CMD[7], reserved. -/
  rsv : BitVec 1
  /-- CMD[6], the value a set-bit operation writes. -/
  v : BitVec 1
  /-- CMD[5:4], the width tier (R61). -/
  tier : BitVec 2
  /-- CMD[3:0], the function within the tier (R62). -/
  fn : BitVec 4
  deriving DecidableEq, Repr

/-- The operand width tiers (R61, R13). -/
inductive Tier where
  | byte
  | word
  | dword
  | float
  deriving DecidableEq, Repr

/-- The TIER field of a tier (R61). -/
def Tier.code : Tier → BitVec 2
  | .byte => 0b00
  | .word => 0b01
  | .dword => 0b10
  | .float => 0b11

/-- The operand width N of a tier (R61). -/
def Tier.width : Tier → Nat
  | .byte => 8
  | .word => 16
  | .dword => 32
  | .float => 32

/-- The 25 operations of R68. An operation takes its operands from the ports A and B (R60), so a constructor
holds only what CMD itself holds: the boolean V of the set-bit operations (R63). -/
inductive Instr where
  /-- `get.b` (R101): bit get, byte. -/
  | getB
  /-- `set.b` (R102): bit set, byte; `v` is V. -/
  | setB (v : Bool)
  /-- `rol.b` (R103): rotate left, byte. -/
  | rolB
  /-- `ror.b` (R104): rotate right, byte. -/
  | rorB
  /-- `rev.b` (R105): bit reverse, byte. -/
  | revB
  /-- `inv.b` (R106): bit invert, byte. -/
  | invB
  /-- `get.w` (R131): bit get, word. -/
  | getW
  /-- `set.w` (R132): bit set, word; `v` is V. -/
  | setW (v : Bool)
  /-- `rol.w` (R133): rotate left, word. -/
  | rolW
  /-- `ror.w` (R134): rotate right, word. -/
  | rorW
  /-- `rev.w` (R135): bit reverse, word. -/
  | revW
  /-- `inv.w` (R136): bit invert, word. -/
  | invW
  /-- `compose.w` (R137): a word from two bytes. -/
  | composeW
  /-- `decompose.w` (R138): a word into two bytes. -/
  | decomposeW
  /-- `swap.w` (R139): exchange the bytes of a word. -/
  | swapW
  /-- `get.d` (R171): bit get, double-word. -/
  | getD
  /-- `set.d` (R172): bit set, double-word; `v` is V. -/
  | setD (v : Bool)
  /-- `rol.d` (R173): rotate left, double-word. -/
  | rolD
  /-- `ror.d` (R174): rotate right, double-word. -/
  | rorD
  /-- `rev.d` (R175): bit reverse, double-word. -/
  | revD
  /-- `inv.d` (R176): bit invert, double-word. -/
  | invD
  /-- `compose.d` (R177): a double-word from two words. -/
  | composeD
  /-- `decompose.d` (R178): a double-word into two words. -/
  | decomposeD
  /-- `swap.d` (R179): exchange the words of a double-word. -/
  | swapD
  /-- `fdecode` (R211): decode a float bit pattern. -/
  | fdecode
  deriving DecidableEq, Repr

end Sys2Proof
end

