-- ==== Sys2Proof/WellFormed.lean ====
section
/-! DEFINITION. When the four fields of a command word name a legal command (30_encoding.md R62 to R64, R70). Every
term of `Instr` is well formed as it stands (its one field, V, may have either value, R63), so the checks are on
the fields of the command word, where an ill-formed term can be written. -/

namespace Sys2Proof

/-- Why a command word is illegal (R70). The block answers every one of them alike (R236). -/
inductive IllegalReason where
  /-- RSV (CMD[7]) is 1 (R64). -/
  | reservedBitSet
  /-- V (CMD[6]) is 1 on a command that is no set-bit operation (R63). -/
  | valueBitOutsideSet
  /-- FN names no function of the tier (R62, R70). -/
  | functionUnassigned
  deriving DecidableEq, Repr

/-- RSV must be 0 (R60, R64). -/
def Cmd8.rsvClear (c : Cmd8) : Bool := c.rsv == 0

/-- The set functions: FN = 0x1 in a tier other than float (R63). -/
def Cmd8.isSet (c : Cmd8) : Bool := c.fn == 0x1 && c.tier != 0b11

/-- V must be 0 for every command but a set-bit operation (R63). -/
def Cmd8.vAllowed (c : Cmd8) : Bool := c.v == 0 || c.isSet

/-- FN names a function of the tier: 0x0 to 0x5 for bytes, 0x0 to 0x8 for words and double-words, 0x0 for the float
tier (R62, R69). -/
def Cmd8.fnAssigned (c : Cmd8) : Bool :=
  match c.tier with
  | 0b00 => decide (c.fn ≤ 0x5)
  | 0b01 => decide (c.fn ≤ 0x8)
  | 0b10 => decide (c.fn ≤ 0x8)
  | _ => c.fn == 0x0

/-- The three checks of R69, taken in its order: the first that fails is the reason. -/
def Cmd8.illegal? (c : Cmd8) : Option IllegalReason :=
  if !c.rsvClear then some .reservedBitSet
  else if !c.vAllowed then some .valueBitOutsideSet
  else if !c.fnAssigned then some .functionUnassigned
  else none

/-- The fields name a legal command (R68, R70). -/
def Cmd8.wellFormed (c : Cmd8) : Bool := c.rsvClear && c.vAllowed && c.fnAssigned

end Sys2Proof
end

