-- ==== Sys2Proof/Decode.lean ====
section
/-! DEFINITION. The decoder (30_encoding.md R69), total on the 256 command words, and after it the encoder, written
from the opcode map of R68. A command word is one byte; the operands are no part of it (R60, R72). -/

namespace Sys2Proof

/-- The four fields of a command word (R60). -/
def splitCmd (cmd : BitVec 8) : Cmd8 :=
  { rsv := cmd.extractLsb' 7 1, v := cmd.extractLsb' 6 1, tier := cmd.extractLsb' 4 2, fn := cmd.extractLsb' 0 4 }

/-- The command word of four fields (R60). -/
def joinCmd (c : Cmd8) : BitVec 8 := c.rsv ++ c.v ++ c.tier ++ c.fn

/-- The byte operation of a function number (R62, R69). -/
def decodeByteFn (v : Bool) (fn : BitVec 4) : Except IllegalReason Instr :=
  match fn with
  | 0x0 => .ok .getB
  | 0x1 => .ok (.setB v)
  | 0x2 => .ok .rolB
  | 0x3 => .ok .rorB
  | 0x4 => .ok .revB
  | 0x5 => .ok .invB
  | _ => .error .functionUnassigned

/-- The word operation of a function number (R62, R69). -/
def decodeWordFn (v : Bool) (fn : BitVec 4) : Except IllegalReason Instr :=
  match fn with
  | 0x0 => .ok .getW
  | 0x1 => .ok (.setW v)
  | 0x2 => .ok .rolW
  | 0x3 => .ok .rorW
  | 0x4 => .ok .revW
  | 0x5 => .ok .invW
  | 0x6 => .ok .composeW
  | 0x7 => .ok .decomposeW
  | 0x8 => .ok .swapW
  | _ => .error .functionUnassigned

/-- The double-word operation of a function number (R62, R69). -/
def decodeDwordFn (v : Bool) (fn : BitVec 4) : Except IllegalReason Instr :=
  match fn with
  | 0x0 => .ok .getD
  | 0x1 => .ok (.setD v)
  | 0x2 => .ok .rolD
  | 0x3 => .ok .rorD
  | 0x4 => .ok .revD
  | 0x5 => .ok .invD
  | 0x6 => .ok .composeD
  | 0x7 => .ok .decomposeD
  | 0x8 => .ok .swapD
  | _ => .error .functionUnassigned

/-- The float operation of a function number: only fdecode (R62). -/
def decodeFloatFn (fn : BitVec 4) : Except IllegalReason Instr :=
  match fn with
  | 0x0 => .ok .fdecode
  | _ => .error .functionUnassigned

/-- R69's case on (tier, fn), once RSV and V have been found legal. -/
def decodeTierFn (c : Cmd8) : Except IllegalReason Instr :=
  match c.tier with
  | 0b00 => decodeByteFn (c.v == 1) c.fn
  | 0b01 => decodeWordFn (c.v == 1) c.fn
  | 0b10 => decodeDwordFn (c.v == 1) c.fn
  | _ => decodeFloatFn c.fn

/-- `decode(CMD)` of R69: RSV first, then V, then the case on tier and function. Where the rule says
`raise IllegalCommand(CMD)`, this refuses with the reason; what the block then answers is
`Machine.takeIllegalCommand`. -/
def decode (cmd : BitVec 8) : Except IllegalReason Instr :=
  let c := splitCmd cmd
  if !c.rsvClear then .error .reservedBitSet
  else if !c.vAllowed then .error .valueBitOutsideSet
  else decodeTierFn c

/-- The fields of a word with RSV = 0 and V = 0 (the "CMD (V=0)" column of R68). -/
def plainFields (tier : Tier) (fn : BitVec 4) : Cmd8 := { rsv := 0, v := 0, tier := tier.code, fn := fn }

/-- The fields of a set-bit command (R63): FN = 0x1 with V the value written. -/
def setFields (tier : Tier) (v : Bool) : Cmd8 :=
  { rsv := 0, v := if v then 1 else 0, tier := tier.code, fn := 0x1 }

/-- The fields the opcode map of R68 gives an instruction. -/
def instrFields : Instr → Cmd8
  | .getB => plainFields .byte 0x0
  | .setB v => setFields .byte v
  | .rolB => plainFields .byte 0x2
  | .rorB => plainFields .byte 0x3
  | .revB => plainFields .byte 0x4
  | .invB => plainFields .byte 0x5
  | .getW => plainFields .word 0x0
  | .setW v => setFields .word v
  | .rolW => plainFields .word 0x2
  | .rorW => plainFields .word 0x3
  | .revW => plainFields .word 0x4
  | .invW => plainFields .word 0x5
  | .composeW => plainFields .word 0x6
  | .decomposeW => plainFields .word 0x7
  | .swapW => plainFields .word 0x8
  | .getD => plainFields .dword 0x0
  | .setD v => setFields .dword v
  | .rolD => plainFields .dword 0x2
  | .rorD => plainFields .dword 0x3
  | .revD => plainFields .dword 0x4
  | .invD => plainFields .dword 0x5
  | .composeD => plainFields .dword 0x6
  | .decomposeD => plainFields .dword 0x7
  | .swapD => plainFields .dword 0x8
  | .fdecode => plainFields .float 0x0

/-- The command word of an instruction (R68). -/
def encode (i : Instr) : BitVec 8 := joinCmd (instrFields i)

/-- The command word among `nbits` bits numbered as the opcode table numbers them: bit 0 is CMD[0], and the bits from
`nbits` up are 0. Every row of the table is the one byte CMD (R72). -/
def tableCmd (nbits w : Nat) : BitVec 8 := BitVec.ofNat 8 (w % 2 ^ nbits)

/-- What the decoder reads from a word of the opcode table. -/
def decodeTableWord (nbits w : Nat) : Option Instr :=
  match decode (tableCmd nbits w) with
  | .ok i => some i
  | .error _ => none

end Sys2Proof
end

