-- ==== Sys2Proof/Config.lean ====
section
/-! DEFINITION. What one implementation fixes (00_scope.md R1, R6), and the values the spec leaves open: the
parameter `P_NAN` (decision D12) and what the output pins read before there is a response (R261). -/

namespace Sys2Proof.Config

/-- The name of the hardware (R1). -/
def hardwareName : String := "bit_get_byte"

/-- The short name of the hardware (R1). -/
def shortName : String := "BITU"

/-- The identity string of R1 (decision D21). No port of the block reports it. -/
def identity : String := "SSBM-BITU-v7"

/-- The vendor R1 records (decision D21). -/
def vendor : String := "jwilcoxson"

/-- The exponent bias of a float pattern (R6). -/
def exponentBias : Nat := 127

/-- Cause code 0: no exception (60_exceptions.md R230). -/
def noExceptionCause : Nat := 0

/-- Cause code 1: IllegalCommand, the only exception (R230). -/
def illegalCommandCause : Nat := 1

/-- A bit pattern that R6 admits as `P_NAN`: raw exponent field 0xFF and a fraction field that is not zero. Only
the sign and the fraction are free; the fraction field is stored less one, so that no value of this type has
fraction 0. `Laws/Config.lean` proves that these are exactly the patterns R6 admits. -/
structure NaNPattern where
  sign : BitVec 1
  fractionPred : Fin 8388607
  deriving DecidableEq, Repr, Inhabited

/-- The 32 bits of an admitted NaN pattern: sign in bit 31, 0xFF in bits 30:23, the fraction in bits 22:0. -/
def NaNPattern.bits (p : NaNPattern) : DWord :=
  p.sign ++ 0xFF#8 ++ BitVec.ofNat 23 (p.fractionPred.val + 1)

/-- The implementation's choice of `P_NAN` (R6, decision D12: OPEN). It has no body: nothing can be proved of it
but what holds of every admitted pattern. One fixed value for an implementation (R23). -/
opaque pNanChoice : NaNPattern

/-- `P_NAN`, the pattern fdecode returns for a NaN input (R212). -/
def pNan : DWord := pNanChoice.bits

/-- What sampling number `n` reads from the Y pins while there is no response: any value (R261,
93_implementation_defined.md U8). -/
opaque unspecifiedY : Nat → DWord

/-- What sampling number `n` reads from the Z pins while there is no response: any value (R261, U8). -/
opaque unspecifiedZ : Nat → DWord

/-- What sampling number `n` reads from the T pin while there is no response: any value (R261, U8). -/
opaque unspecifiedT : Nat → Bool

/-- What sampling number `n` reads from the ILL pin while there is no response: any value (R261, U8). -/
opaque unspecifiedIll : Nat → Bool

end Sys2Proof.Config
end

