-- ==== Sys2Proof/Machine/State.lean ====
section
/-! DEFINITION. What stands on the block's ports between two steps, and the reasons a step can stop.

The block has no architectural state (10_state.md R20): no register, program counter, flag, control register, memory
or mode (R27 to R33). What the host and the block exchange is held here: the command the host has presented and the
block has not yet answered, the operand ports, and the block's last response (R21, R22). -/

namespace Sys2Proof.Machine

/-- One response: the four output ports (R22). -/
structure Response where
  /-- Y, the primary result. -/
  y : DWord
  /-- Z, the secondary result. -/
  z : DWord
  /-- T, the boolean result, 1 = true (decision D16). -/
  t : Bool
  /-- ILL, 1 when the command was illegal. -/
  ill : Bool
  deriving DecidableEq, Repr

/-- The ports of the block between two steps. -/
structure State where
  /-- The CMD port: `some c` from the moment the host presents command word `c` until the block answers it, `none`
  when no command is presented (R21: the block's one kind of step takes a command). -/
  cmd : Option (BitVec 8)
  /-- The A port. -/
  a : DWord
  /-- The B port. -/
  b : DWord
  /-- The last response, `none` before the first: "Before the first command there is no response" (R34, R261). -/
  response : Option Response
  deriving DecidableEq, Repr

/-- The reasons a step stops with a fault. -/
inductive Fault where
  /-- IllegalCommand, the only exception (60_exceptions.md R230), raised by the step that takes an illegal command
  word (30_encoding.md R70): "A Lean model should treat a response with ILL = 1 as a fault outcome that the host's
  program caused" (R231). `after` is the state the command leaves: it holds the response the block gives (Y = Z = 0,
  T = 0, ILL = 1), no command is presented any more, and the block can take the next one (R231, R238). Safe: the
  run stops where the spec says a claim may not compute with the response, and what the block does is in `after`. -/
  | illegalCommand (after : State)
  deriving DecidableEq, Repr

/-- The reasons a step gives no meaning. -/
inductive Refusal where
  /-- An instruction that has no meaning yet, by its mnemonic; raised only by an arm of `exec`. No arm raises it: all
  25 operations have their meaning. Safe. -/
  | notModelled (mnemonic : String)
  deriving DecidableEq, Repr

/-- The machine right after reset or power-up (70_reset_and_hazards.md R260, R261): nothing presented, no response.
Reset gives no port a value; the operand ports are the host's to drive, and hold 0 here (DESIGN CHOICE,
notes/assumptions/1.md). -/
def State.reset : State := { cmd := none, a := 0, b := 0, response := none }

end Sys2Proof.Machine
end

