-- ==== Sys2Proof/Machine/Flags.lean ====
section
/-! DEFINITION. The output ports of a command. The block has no flags and no condition codes (10_state.md R29): T and
ILL are ports, defined afresh by every command, so what other machines compute as flags is computed here as a whole
response. Each form names the ports its operations set; every other port has its fixed value (R24). -/

namespace Sys2Proof.Machine

/-- The response of a legal command that sets only Y (R24). -/
def replyY (y : DWord) : Response := { y := y, z := 0, t := false, ill := false }

/-- The response of a legal command that sets Y and Z: the decompose operations (R24, R138, R178). -/
def replyYZ (y z : DWord) : Response := { y := y, z := z, t := false, ill := false }

/-- The response of a legal command that sets only T: the get-bit operations (R24, R101). -/
def replyT (t : Bool) : Response := { y := 0, z := 0, t := t, ill := false }

/-- The IllegalCommand response: Y = Z = 0, T = 0, ILL = 1, and nothing of the command or its operands (R231, R232). -/
def replyIllegal : Response := { y := 0, z := 0, t := false, ill := true }

/-- The cause code a response reports (R230): ILL = 1 is cause 1, ILL = 0 is cause 0. -/
def Response.causeCode (r : Response) : Nat :=
  if r.ill then Config.illegalCommandCause else Config.noExceptionCause

end Sys2Proof.Machine
end

