-- ==== Sys2Proof/Machine/Operands.lean ====
section
/-! DEFINITION. How an operation reads its operands from the ports A and B (30_encoding.md R65 to R67). -/

namespace Sys2Proof.Machine

/-- The byte an operation reads from a port: bits 7:0, the rest ignored (R25, R65, R66). -/
def byteOperand (p : DWord) : Byte := p.extractLsb' 0 8

/-- The word an operation reads from a port: bits 15:0, the rest ignored (R25, R65, R66). -/
def wordOperand (p : DWord) : Word := p.extractLsb' 0 16

/-- The double-word an operation reads from a port: all of it (R65). -/
def dwordOperand (p : DWord) : DWord := p

/-- `idx_N(B) = sint32(B) mod N`, by floored modulo (R9, R10, R67): for N > 0 Lean's `%` on Int is that modulo. -/
def idx (n : Nat) (b : DWord) : Nat := (b.toInt % (n : Int)).toNat

/-- `idx_8` (R67). -/
def idx8 (b : DWord) : Nat := idx 8 b

/-- `idx_16` (R67). -/
def idx16 (b : DWord) : Nat := idx 16 b

/-- `idx_32` (R67). -/
def idx32 (b : DWord) : Nat := idx 32 b

/-- The B pattern a host presents for an index or count of any size: `n mod 2^32` (R67, decision D6); a negative n
stands for its two's-complement pattern (R73). -/
def hostPattern (n : Int) : DWord := BitVec.ofInt 32 n

end Sys2Proof.Machine
end

