-- ==== Sys2Proof/Machine/Ops.lean ====
section
/-! DEFINITION. The operations the meanings share: answering a command and taking IllegalCommand, and the bit
operations of the three width tiers. "Each tier's operations are built from the tier below" (00_scope.md R2), so the
word tier calls the byte tier's functions and the double-word tier the word tier's, as the rules' pseudocode does. -/

namespace Sys2Proof.Machine

/-! ### Commands and responses -/

/-- The block answers the command it has taken: all four output ports at once, and the command is no longer presented
(R21, R45). The operand ports are the host's and stay as they are. -/
def State.answer (s : State) (r : Response) : State := { s with cmd := none, response := some r }

/-- The outcome of a legal operation: its response, and nothing else (R24, R46). -/
def reply (s : State) (r : Response) : Host.Outcome State Fault Refusal := .next (s.answer r)

/-- Taking the one exception, IllegalCommand (R230, R231). Nothing is saved, no mode changes and control goes nowhere
(R237): the block gives the illegal-command response, performs no operation, and can take the next command. Every
reason gets the same response (R236). R231 asks for a fault outcome; the state that holds the response is its
argument. There is no return from it, for no handler runs (R238). -/
def takeIllegalCommand (_why : IllegalReason) (s : State) : Host.Outcome State Fault Refusal :=
  .fault (.illegalCommand (s.answer replyIllegal))

/-- The state an exception leaves the block in, from which the next command is handled normally (R231, R238). -/
def Fault.after : Fault → State
  | .illegalCommand s => s

/-- The cause code of an exception (R230). -/
def Fault.causeCode : Fault → Nat
  | .illegalCommand _ => Config.illegalCommandCause

/-- The command word presented, if there is one (R21, R22). -/
def fetch (s : State) : Option (BitVec 8) := s.cmd

/-- No command is presented: nothing happens until the host presents one (DESIGN CHOICE, notes/assumptions/2.md). -/
def idle (s : State) : Host.Outcome State Fault Refusal := .next s

/-- The host presents a command word and leaves the operand ports as they are. A word that still waits is replaced and gets
no response (DESIGN CHOICE, notes/assumptions/15.md). -/
def presentWord (cmd : BitVec 8) (s : State) : State := { s with cmd := some cmd }

/-- The response to the command presented last. While a command waits for its answer there is none (R261). -/
def State.currentResponse (s : State) : Option Response :=
  match s.cmd with
  | none => s.response
  | some _ => none

/-- What sampling number `n` of the output pins reads: the response if there is one, and any value if there is none
(R261, 93_implementation_defined.md U8). -/
def State.samplePins (n : Nat) (s : State) : Response :=
  match s.currentResponse with
  | some r => r
  | none =>
    { y := Config.unspecifiedY n, z := Config.unspecifiedZ n, t := Config.unspecifiedT n,
      ill := Config.unspecifiedIll n }

/-! ### The byte tier -/

/-- `getBit_8(x, j) = x[j]` (R100). -/
def getBit8 (x : Byte) (j : Nat) : Bool := x.getLsbD j

/-- `setBit_8(x, j, b) = x with [j] := b` (R100). -/
def setBit8 (x : Byte) (j : Nat) (b : Bool) : Byte :=
  if b then x ||| (1#8 <<< j) else x &&& ~~~(1#8 <<< j)

/-- rol.b by a reduced count: widen to 16 bits, shift, fold (R103). -/
def rol8 (v : Byte) (k : Nat) : Byte :=
  let w : BitVec 16 := v.setWidth 16 <<< k
  w.extractLsb' 0 8 ||| w.extractLsb' 8 8

/-- ror.b by a reduced count (R104). -/
def ror8 (v : Byte) (k : Nat) : Byte :=
  let w : BitVec 16 := (v.setWidth 16 <<< 8) >>> k
  w.extractLsb' 8 8 ||| w.extractLsb' 0 8

/-- rev.b, bit by bit (R105). -/
def rev8 (v : Byte) : Byte :=
  (List.range 8).foldl (fun r i => setBit8 r i (getBit8 v (7 - i))) 0

/-- inv.b, bit by bit (R106). -/
def inv8 (v : Byte) : Byte :=
  (List.range 8).foldl (fun r i => setBit8 r i (!getBit8 v i)) 0

/-! ### The word tier -/

/-- `lowByte(w)`: bits 7:0 (R130). -/
def lowByte (w : Word) : Byte := w.extractLsb' 0 8

/-- `highByte(w)`: bits 15:8 (R130). -/
def highByte (w : Word) : Byte := w.extractLsb' 8 8

/-- `composeWord(h, l) = (h << 8) | l` (R41, R130). -/
def composeWord (h l : Byte) : Word := h ++ l

/-- get.w on a reduced index: the byte-tier get on the half that holds the bit (R131). -/
def getBit16 (x : Word) (j : Nat) : Bool :=
  if j ≥ 8 then getBit8 (highByte x) (j - 8) else getBit8 (lowByte x) j

/-- set.w on a reduced index: the byte-tier set on the half that holds the bit (R132). -/
def setBit16 (x : Word) (j : Nat) (b : Bool) : Word :=
  if j ≥ 8 then composeWord (setBit8 (highByte x) (j - 8) b) (lowByte x)
  else composeWord (highByte x) (setBit8 (lowByte x) j b)

/-- rol.w by a reduced count: widen to 32 bits, shift, fold (R133). -/
def rol16 (v : Word) (k : Nat) : Word :=
  let w : BitVec 32 := v.setWidth 32 <<< k
  w.extractLsb' 0 16 ||| w.extractLsb' 16 16

/-- ror.w by a reduced count (R134). -/
def ror16 (v : Word) (k : Nat) : Word :=
  let w : BitVec 32 := (v.setWidth 32 <<< 16) >>> k
  w.extractLsb' 16 16 ||| w.extractLsb' 0 16

/-- rev.w: get and set over all 16 positions, the full mirror (R135, 90_conflicts.md C4). -/
def rev16 (v : Word) : Word :=
  (List.range 16).foldl (fun r i => setBit16 r i (getBit16 v (15 - i))) 0

/-- inv.w: the byte-tier invert of each half (R136). -/
def inv16 (v : Word) : Word := composeWord (inv8 (highByte v)) (inv8 (lowByte v))

/-- swap.w: the halves exchanged (R139). -/
def swap16 (v : Word) : Word := composeWord (lowByte v) (highByte v)

/-! ### The double-word tier -/

/-- `lowWord(d)`: bits 15:0 (R170). -/
def lowWord (d : DWord) : Word := d.extractLsb' 0 16

/-- `highWord(d)`: bits 31:16 (R170). -/
def highWord (d : DWord) : Word := d.extractLsb' 16 16

/-- `composeDoubleWord(h, l) = (h << 16) | l` (R170). -/
def composeDoubleWord (h l : Word) : DWord := h ++ l

/-- get.d on a reduced index: the word-tier get on the half that holds the bit (R171). `getBit_32` of the float
decoder (43_float.md). -/
def getBit32 (x : DWord) (j : Nat) : Bool :=
  if j ≥ 16 then getBit16 (highWord x) (j - 16) else getBit16 (lowWord x) j

/-- set.d on a reduced index: the word-tier set on the half that holds the bit (R172). -/
def setBit32 (x : DWord) (j : Nat) (b : Bool) : DWord :=
  if j ≥ 16 then composeDoubleWord (setBit16 (highWord x) (j - 16) b) (lowWord x)
  else composeDoubleWord (highWord x) (setBit16 (lowWord x) j b)

/-- rol.d by a reduced count: widen to 64 bits, shift, fold (R173). -/
def rol32 (v : DWord) (k : Nat) : DWord :=
  let w : BitVec 64 := v.setWidth 64 <<< k
  w.extractLsb' 0 32 ||| w.extractLsb' 32 32

/-- ror.d by a reduced count (R174). -/
def ror32 (v : DWord) (k : Nat) : DWord :=
  let w : BitVec 64 := (v.setWidth 64 <<< 32) >>> k
  w.extractLsb' 32 32 ||| w.extractLsb' 0 32

/-- rev.d: get and set over all 32 positions, the full mirror (R175). -/
def rev32 (v : DWord) : DWord :=
  (List.range 32).foldl (fun r i => setBit32 r i (getBit32 v (31 - i))) 0

/-- inv.d: the word-tier invert of each half (R176). -/
def inv32 (v : DWord) : DWord := composeDoubleWord (inv16 (highWord v)) (inv16 (lowWord v))

/-- swap.d: the words exchanged, the byte order inside each kept (R179). -/
def swap32 (v : DWord) : DWord := composeDoubleWord (lowWord v) (highWord v)

end Sys2Proof.Machine
end

