-- ==== Sys2Proof/Machine/ByteTier.lean ====
section
/-! DEFINITION. The byte-tier operations (40_byte.md R100 to R106). Each reads the byte A[7:0], returns an 8-bit result
zero-extended on Y (R100), and never fails. -/

namespace Sys2Proof.Machine

/-- `get.b` (R101). -/
def execGetB (s : State) : Host.Outcome State Fault Refusal :=
  reply s (replyT (getBit8 (byteOperand s.a) (idx8 s.b)))

/-- `set.b` with value V (R102). -/
def execSetB (v : Bool) (s : State) : Host.Outcome State Fault Refusal :=
  reply s (replyY ((setBit8 (byteOperand s.a) (idx8 s.b) v).setWidth 32))

/-- `rol.b` (R103). -/
def execRolB (s : State) : Host.Outcome State Fault Refusal :=
  reply s (replyY ((rol8 (byteOperand s.a) (idx8 s.b)).setWidth 32))

/-- `ror.b` (R104). -/
def execRorB (s : State) : Host.Outcome State Fault Refusal :=
  reply s (replyY ((ror8 (byteOperand s.a) (idx8 s.b)).setWidth 32))

/-- `rev.b` (R105). -/
def execRevB (s : State) : Host.Outcome State Fault Refusal :=
  reply s (replyY ((rev8 (byteOperand s.a)).setWidth 32))

/-- `inv.b` (R106). -/
def execInvB (s : State) : Host.Outcome State Fault Refusal :=
  reply s (replyY ((inv8 (byteOperand s.a)).setWidth 32))

end Sys2Proof.Machine
end

