-- ==== Sys2Proof/Machine/DwordTier.lean ====
section
/-! DEFINITION. The double-word-tier operations (42_dword.md R170 to R179). Each but compose.d reads all of A (R170);
none fails. -/

namespace Sys2Proof.Machine

/-- `get.d` (R171). -/
def execGetD (s : State) : Host.Outcome State Fault Refusal :=
  reply s (replyT (getBit32 (dwordOperand s.a) (idx32 s.b)))

/-- `set.d` with value V (R172). -/
def execSetD (v : Bool) (s : State) : Host.Outcome State Fault Refusal :=
  reply s (replyY (setBit32 (dwordOperand s.a) (idx32 s.b) v))

/-- `rol.d` (R173). -/
def execRolD (s : State) : Host.Outcome State Fault Refusal :=
  reply s (replyY (rol32 (dwordOperand s.a) (idx32 s.b)))

/-- `ror.d` (R174). -/
def execRorD (s : State) : Host.Outcome State Fault Refusal :=
  reply s (replyY (ror32 (dwordOperand s.a) (idx32 s.b)))

/-- `rev.d` (R175). -/
def execRevD (s : State) : Host.Outcome State Fault Refusal :=
  reply s (replyY (rev32 (dwordOperand s.a)))

/-- `inv.d` (R176). -/
def execInvD (s : State) : Host.Outcome State Fault Refusal :=
  reply s (replyY (inv32 (dwordOperand s.a)))

/-- `compose.d` (R177): A[15:0] is the high word, B[15:0] the low word (decision D15). -/
def execComposeD (s : State) : Host.Outcome State Fault Refusal :=
  reply s (replyY (composeDoubleWord (wordOperand s.a) (wordOperand s.b)))

/-- `decompose.d` (R178): the high word on Y, the low word on Z (decision D14). -/
def execDecomposeD (s : State) : Host.Outcome State Fault Refusal :=
  reply s (replyYZ ((highWord (dwordOperand s.a)).setWidth 32) ((lowWord (dwordOperand s.a)).setWidth 32))

/-- `swap.d` (R179). -/
def execSwapD (s : State) : Host.Outcome State Fault Refusal :=
  reply s (replyY (swap32 (dwordOperand s.a)))

end Sys2Proof.Machine
end

