-- ==== Sys2Proof/Machine/FloatTier.lean ====
section
/-! DEFINITION. The float bit-pattern decoder (43_float.md R210 to R219). The real numbers its pseudocode uses (R12)
are all of the form mag * 2^exp with a sign, so they are held exactly, and rounded once (R213). -/

namespace Sys2Proof.Machine

/-- A number `(-1)^neg * mag * 2^exp`: the exact product of step 5 (R213). -/
structure ExactReal where
  neg : Bool
  mag : Nat
  exp : Int
  deriving DecidableEq, Repr

/-- `m / 2^d` rounded to the nearest integer, a tie going to the even one (R12). -/
def shiftRightNearestEven (m d : Nat) : Nat :=
  let q := m >>> d
  let rest := m % 2 ^ d
  if 2 * rest > 2 ^ d || (2 * rest == 2 ^ d && q % 2 == 1) then q + 1 else q

/-- `mag * 2^exp` in units of `2^quantum`, rounded to nearest even (R12). -/
def inUnits (mag : Nat) (exp quantum : Int) : Nat :=
  if exp ≥ quantum then mag <<< (exp - quantum).toNat
  else shiftRightNearestEven mag (quantum - exp).toNat

/-- The exponent of the last place of the binary32 values around a nonzero `mag * 2^exp`: 23 below the leading bit, and
never below -149, the last place of the subnormal values (R12). -/
def lastPlace (mag : Nat) (exp : Int) : Int := max ((Nat.log2 mag : Int) + exp - 23) (-149)

/-- The 31 bits below the sign of `rne32` for a magnitude that is not 0. With `q` the last place and `n` the magnitude
in units of `2^q`, the pattern is `(q + 149) * 2^23 + n` both for subnormal values (q = -149) and for normal ones (where
n holds the leading 1), and a rounding that carries out of the fraction field runs on into the exponent field as it
should. From 0x7F800000 up the magnitude rounds above the largest finite value, and the result is infinity (R12). -/
def magnitudeBits (mag : Nat) (exp : Int) : Nat :=
  let q := lastPlace mag exp
  let p := (q + 149).toNat * 0x800000 + inUnits mag exp q
  if p ≥ 0x7F800000 then 0x7F800000 else p

/-- `rne32(x)` (R12): round to the nearest binary32 value, ties to even, with gradual underflow and overflow to the
infinity of x's sign. The real number 0 gives the zero pattern of the sign flag (DESIGN CHOICE,
notes/assumptions/6.md); the decoder never forms it, for its mantissa is at least 1.0. -/
def rne32 (x : ExactReal) : DWord :=
  let signBit : DWord := if x.neg then 0x80000000 else 0
  if x.mag = 0 then signBit else signBit ||| BitVec.ofNat 32 (magnitudeBits x.mag x.exp)

/-- Step 2 of R211: the raw exponent field E, 0 to 255, summed bit by bit over bits 23 to 30. -/
def rawExponent (bits : DWord) : Nat :=
  (List.range 8).foldl (fun e i => if getBit32 bits (23 + i) then e + 2 ^ i else e) 0

/-- Step 3 of R211: the mantissa sum m, in units of 2^-23. The sum starts at 1.0, and a set bit i adds 2^-(23-i), which
is 2^i such units. -/
def mantissaSum (bits : DWord) : Nat :=
  (List.range 23).foldl (fun m i => if getBit32 bits i then m + 2 ^ i else m) (2 ^ 23)

/-- The fraction field f = bits[22:0] (R210). -/
def fractionField (bits : DWord) : BitVec 23 := bits.extractLsb' 0 23

/-- Step 4's condition, as 90_conflicts.md C1 resolves it: E = 255 and the fraction field is not zero (R212). -/
def isNaNInput (bits : DWord) : Bool := rawExponent bits == 255 && fractionField bits != 0

/-- Steps 1 to 3 and 5 of R211: sign * 2^e * m, exactly, with e = E - 127. -/
def generalFormula (bits : DWord) : ExactReal :=
  { neg := getBit32 bits 31
    mag := mantissaSum bits
    exp := (rawExponent bits : Int) - (Config.exponentBias : Int) - 23 }

/-- `decodeFloatBits(bits)` (R211): `P_NAN` for the NaN inputs, and the general formula, rounded once, for every other.
Exponent field 0 keeps the implicit leading 1 (R215), and the infinities take the general formula (R216). -/
def decodeFloatBits (bits : DWord) : DWord :=
  if isNaNInput bits then Config.pNan else rne32 (generalFormula bits)

/-- `fdecode` (R211): B is unused; it never fails (R217). -/
def execFdecode (s : State) : Host.Outcome State Fault Refusal :=
  reply s (replyY (decodeFloatBits (dwordOperand s.a)))

end Sys2Proof.Machine
end

