-- ==== Sys2Proof/Machine/WordTier.lean ====
section
/-! DEFINITION. The word-tier operations (41_word.md R130 to R139). Each but compose.w reads the word A[15:0] (R130);
a 16-bit result is zero-extended on Y; none fails. -/

namespace Sys2Proof.Machine

/-- `get.w` (R131). -/
def execGetW (s : State) : Host.Outcome State Fault Refusal :=
  reply s (replyT (getBit16 (wordOperand s.a) (idx16 s.b)))

/-- `set.w` with value V (R132). -/
def execSetW (v : Bool) (s : State) : Host.Outcome State Fault Refusal :=
  reply s (replyY ((setBit16 (wordOperand s.a) (idx16 s.b) v).setWidth 32))

/-- `rol.w` (R133). -/
def execRolW (s : State) : Host.Outcome State Fault Refusal :=
  reply s (replyY ((rol16 (wordOperand s.a) (idx16 s.b)).setWidth 32))

/-- `ror.w` (R134). -/
def execRorW (s : State) : Host.Outcome State Fault Refusal :=
  reply s (replyY ((ror16 (wordOperand s.a) (idx16 s.b)).setWidth 32))

/-- `rev.w` (R135). -/
def execRevW (s : State) : Host.Outcome State Fault Refusal :=
  reply s (replyY ((rev16 (wordOperand s.a)).setWidth 32))

/-- `inv.w` (R136). -/
def execInvW (s : State) : Host.Outcome State Fault Refusal :=
  reply s (replyY ((inv16 (wordOperand s.a)).setWidth 32))

/-- `compose.w` (R137): A[7:0] is the high byte, B[7:0] the low byte (decision D15). -/
def execComposeW (s : State) : Host.Outcome State Fault Refusal :=
  reply s (replyY ((composeWord (byteOperand s.a) (byteOperand s.b)).setWidth 32))

/-- `decompose.w` (R138): the high byte on Y, the low byte on Z (decision D14). -/
def execDecomposeW (s : State) : Host.Outcome State Fault Refusal :=
  reply s (replyYZ ((highByte (wordOperand s.a)).setWidth 32) ((lowByte (wordOperand s.a)).setWidth 32))

/-- `swap.w` (R139). -/
def execSwapW (s : State) : Host.Outcome State Fault Refusal :=
  reply s (replyY ((swap16 (wordOperand s.a)).setWidth 32))

end Sys2Proof.Machine
end

