-- ==== Sys2Proof/Machine/Dispatch.lean ====
section
/-! DEFINITION. One arm per operation of the opcode map (30_encoding.md R68). -/

namespace Sys2Proof.Machine

def exec (i : Instr) (s : State) : Host.Outcome State Fault Refusal :=
  match i with
  | .getB => Sys2Proof.Machine.execGetB s
  | .setB v => Sys2Proof.Machine.execSetB v s
  | .rolB => Sys2Proof.Machine.execRolB s
  | .rorB => Sys2Proof.Machine.execRorB s
  | .revB => Sys2Proof.Machine.execRevB s
  | .invB => Sys2Proof.Machine.execInvB s
  | .getW => Sys2Proof.Machine.execGetW s
  | .setW v => Sys2Proof.Machine.execSetW v s
  | .rolW => Sys2Proof.Machine.execRolW s
  | .rorW => Sys2Proof.Machine.execRorW s
  | .revW => Sys2Proof.Machine.execRevW s
  | .invW => Sys2Proof.Machine.execInvW s
  | .composeW => Sys2Proof.Machine.execComposeW s
  | .decomposeW => Sys2Proof.Machine.execDecomposeW s
  | .swapW => Sys2Proof.Machine.execSwapW s
  | .getD => Sys2Proof.Machine.execGetD s
  | .setD v => Sys2Proof.Machine.execSetD v s
  | .rolD => Sys2Proof.Machine.execRolD s
  | .rorD => Sys2Proof.Machine.execRorD s
  | .revD => Sys2Proof.Machine.execRevD s
  | .invD => Sys2Proof.Machine.execInvD s
  | .composeD => Sys2Proof.Machine.execComposeD s
  | .decomposeD => Sys2Proof.Machine.execDecomposeD s
  | .swapD => Sys2Proof.Machine.execSwapD s
  | .fdecode => Sys2Proof.Machine.execFdecode s

end Sys2Proof.Machine
end

