-- ==== Sys2Proof/Machine/Step.lean ====
section
/-! DEFINITION. The block's one kind of step: it takes the command presented and produces its response (10_state.md
R21). -/

namespace Sys2Proof.Machine

/-- One step. With a command presented: decode it, and perform the operation or take IllegalCommand (30_encoding.md
R69). With none presented: nothing. -/
def step (s : State) : Host.Outcome State Fault Refusal :=
  match fetch s with
  | none => idle s
  | some c =>
    match decode c with
    | .ok i => exec i s
    | .error why => takeIllegalCommand why s

/-- The host presents the command word that `w` is in the opcode table's numbering, with the operand ports as they
are; the next step takes it. A word that still waits is replaced (DESIGN CHOICE, notes/assumptions/15.md). -/
def State.withFetchWord (s : State) (nbits w : Nat) : State := presentWord (tableCmd nbits w) s

end Sys2Proof.Machine
end

