-- ==== Sys2Proof/Machine/Session.lean ====
section
/-! DEFINITION. The other agent, the host: it presents commands one after the other and reads the response to each
(10_state.md R21, 20_memory.md R49). -/

namespace Sys2Proof.Machine

/-- One command: what the host presents on CMD, A and B (R13, R22). -/
structure Command where
  cmd : BitVec 8
  a : DWord
  b : DWord
  deriving DecidableEq, Repr

/-- The host presents a command (R21). DESIGN CHOICE (notes/assumptions/15.md): the spec has no handshake (N7) and does not
say what happens when a command is presented while an earlier one still waits; here the new command takes the place of
the waiting one, which then gets no response. `serve` presents only where the block answers at once, so no command of
a `session` is lost (U12). -/
def State.present (c : Command) (s : State) : State := { s with cmd := some c.cmd, a := c.a, b := c.b }

/-- The state a step leaves the ports in. After an illegal command it is the state the fault carries, from which the
block takes the next command (R231, R238); a refusal leaves the ports as they were. -/
def settle (s : State) : Host.Outcome State Fault Refusal → State
  | .next t => t
  | .fault f => f.after
  | .refused _ => s

/-- The block answers one command. -/
def serve (c : Command) (s : State) : State := settle (s.present c) (step (s.present c))

/-- The responses to a sequence of commands, in the order the host presents them (R49, R264). -/
def session : List Command → State → List (Option Response)
  | [], _ => []
  | c :: rest, s => (serve c s).response :: session rest (serve c s)

/-- The state after a sequence of commands. -/
def afterSession : List Command → State → State
  | [], s => s
  | c :: rest, s => afterSession rest (serve c s)

end Sys2Proof.Machine
end

