-- ==== Sys2Proof/Machine/Assembler.lean ====
section
/-! DEFINITION. The assembler's forms and the host-side variables (30_encoding.md R73, R74). They are text of the host:
nothing here is part of the block or adds a meaning (decision D20). A line is held as data; `Line.text` writes it in the
spelling of R73. -/

namespace Sys2Proof.Machine

/-- The value tiers, `<t>` of R73: b, w or d. -/
inductive ValueTier where
  | b
  | w
  | d
  deriving DecidableEq, Repr

/-- `get.<t>`. -/
def getOf : ValueTier → Instr
  | .b => .getB
  | .w => .getW
  | .d => .getD

/-- `set.<t>` with V. -/
def setOf (v : Bool) : ValueTier → Instr
  | .b => .setB v
  | .w => .setW v
  | .d => .setD v

/-- `rol.<t>`. -/
def rolOf : ValueTier → Instr
  | .b => .rolB
  | .w => .rolW
  | .d => .rolD

/-- `ror.<t>`. -/
def rorOf : ValueTier → Instr
  | .b => .rorB
  | .w => .rorW
  | .d => .rorD

/-- `inv.<t>`. -/
def invOf : ValueTier → Instr
  | .b => .invB
  | .w => .invW
  | .d => .invD

/-- The pseudo-instructions of R74 and the convenience operators of R73. -/
inductive Pseudo where
  /-- `bset.t A, B`. -/
  | bset (t : ValueTier)
  /-- `bclr.t A, B`. -/
  | bclr (t : ValueTier)
  /-- `not.t A`. -/
  | not (t : ValueTier)
  /-- `lowbyte A`. -/
  | lowbyte
  /-- `highbyte A`. -/
  | highbyte
  /-- `lowword A`. -/
  | lowword
  /-- `highword A`. -/
  | highword
  /-- `rotl.t A, B`. -/
  | rotl (t : ValueTier)
  /-- `rotr.t A, B`. -/
  | rotr (t : ValueTier)
  /-- The operator `x <<<.t n`. -/
  | rotlSign (t : ValueTier)
  /-- The operator `x >>>.t n`. -/
  | rotrSign (t : ValueTier)
  /-- The operator `x @.t i`. -/
  | bitTest (t : ValueTier)
  deriving DecidableEq, Repr

/-- Which results of a response a line delivers to its left side (R73, R74). -/
inductive Result where
  /-- Y. -/
  | fromY
  /-- Z. -/
  | fromZ
  /-- T, as 0 or 1. -/
  | fromT
  /-- Y, then Z: `<hi>, <lo>`. -/
  | fromYZ
  deriving DecidableEq, Repr

/-- The results the named operation itself delivers (R73). -/
def Instr.result : Instr → Result
  | .getB => .fromT
  | .getW => .fromT
  | .getD => .fromT
  | .decomposeW => .fromYZ
  | .decomposeD => .fromYZ
  | .setB _ => .fromY
  | .rolB => .fromY
  | .rorB => .fromY
  | .revB => .fromY
  | .invB => .fromY
  | .setW _ => .fromY
  | .rolW => .fromY
  | .rorW => .fromY
  | .revW => .fromY
  | .invW => .fromY
  | .composeW => .fromY
  | .swapW => .fromY
  | .setD _ => .fromY
  | .rolD => .fromY
  | .rorD => .fromY
  | .revD => .fromY
  | .invD => .fromY
  | .composeD => .fromY
  | .swapD => .fromY
  | .fdecode => .fromY

/-- The expansion of a pseudo-instruction and the result it takes (R74). -/
def Pseudo.expand : Pseudo → Instr × Result
  | .bset t => (setOf true t, .fromY)
  | .bclr t => (setOf false t, .fromY)
  | .not t => (invOf t, .fromY)
  | .lowbyte => (.decomposeW, .fromZ)
  | .highbyte => (.decomposeW, .fromY)
  | .lowword => (.decomposeD, .fromZ)
  | .highword => (.decomposeD, .fromY)
  | .rotl t => (rolOf t, .fromY)
  | .rotr t => (rorOf t, .fromY)
  | .rotlSign t => (rolOf t, .fromY)
  | .rotrSign t => (rorOf t, .fromY)
  | .bitTest t => (getOf t, .fromT)

/-- What stands where a line names its operation. -/
inductive Operation where
  | core (i : Instr)
  | pseudo (p : Pseudo)
  /-- A command word written out, as in 95_test_vectors.md P5. -/
  | raw (cmd : BitVec 8)
  deriving DecidableEq, Repr

/-- The command word an operation assembles to (R73, R74). -/
def Operation.word : Operation → BitVec 8
  | .core i => encode i
  | .pseudo p => encode p.expand.1
  | .raw cmd => cmd

/-- The results an operation delivers (R73). DESIGN CHOICE (notes/assumptions/18.md): a command word written out delivers
those of the operation it decodes to. -/
def Operation.result : Operation → Result
  | .core i => Instr.result i
  | .pseudo p => p.expand.2
  | .raw cmd =>
    match decode cmd with
    | .ok i => Instr.result i
    | .error _ => .fromY

/-- The host's variables, latest first: "A variable on the left names a host-side value, not a block register" (R73). -/
abbrev HostVars := List (String × DWord)

/-- An operand of a line (R73). -/
inductive HostOperand where
  /-- A decimal or hexadecimal literal. -/
  | literal (n : Int)
  /-- A host variable holding an earlier result. -/
  | var (name : String)
  /-- "Omitted operands are presented as 0." -/
  | omitted
  deriving DecidableEq, Repr

/-- The pattern an operand presents; none where a variable was never assigned. For B, a literal stands for its value modulo
2^32 (R67, R73). DESIGN CHOICE (notes/assumptions/16.md): the spec gives that reading for B only, and A is unsigned
(R9); here a literal for A that is negative or does not fit 32 bits is reduced modulo 2^32 too. -/
def HostOperand.pattern (vars : HostVars) : HostOperand → Option DWord
  | .literal n => some (hostPattern n)
  | .var name => vars.lookup name
  | .omitted => some 0

/-- One assembly line: `<dests> = <operation> <A>[, <B>]` (R73). -/
structure Line where
  dests : List String
  op : Operation
  a : HostOperand
  b : HostOperand
  deriving DecidableEq, Repr

/-- The command a line presents (R73). -/
def Line.command (vars : HostVars) (l : Line) : Option Command :=
  match l.a.pattern vars, l.b.pattern vars with
  | some a, some b => some { cmd := l.op.word, a := a, b := b }
  | _, _ => none

/-! ### The text of a line (R73, R74) -/

/-- `<t>`. -/
def ValueTier.text : ValueTier → String
  | .b => "b"
  | .w => "w"
  | .d => "d"

/-- The mnemonic of an operation (R68). -/
def Instr.mnemonic : Instr → String
  | .getB => "get.b"
  | .setB _ => "set.b"
  | .rolB => "rol.b"
  | .rorB => "ror.b"
  | .revB => "rev.b"
  | .invB => "inv.b"
  | .getW => "get.w"
  | .setW _ => "set.w"
  | .rolW => "rol.w"
  | .rorW => "ror.w"
  | .revW => "rev.w"
  | .invW => "inv.w"
  | .composeW => "compose.w"
  | .decomposeW => "decompose.w"
  | .swapW => "swap.w"
  | .getD => "get.d"
  | .setD _ => "set.d"
  | .rolD => "rol.d"
  | .rorD => "ror.d"
  | .revD => "rev.d"
  | .invD => "inv.d"
  | .composeD => "compose.d"
  | .decomposeD => "decompose.d"
  | .swapD => "swap.d"
  | .fdecode => "fdecode"

/-- The third operand of the set operations, `V` (R73). -/
def Instr.valueText : Instr → String
  | .setB v => if v then ", 1" else ", 0"
  | .setW v => if v then ", 1" else ", 0"
  | .setD v => if v then ", 1" else ", 0"
  | _ => ""

/-- An operand as text; none where it is omitted (R73). -/
def HostOperand.text : HostOperand → Option String
  | .literal n => some (toString n)
  | .var name => some name
  | .omitted => none

/-- `<name> <A>[, <B>]<rest>` (R73), where `rest` is the V of a set line or empty. DESIGN CHOICE
(notes/assumptions/17.md): R73 gives set only with A, B and V, and every form with A, so it gives no spelling for an
omitted B before V or for an omitted A; here each is written as 0, the value R73 presents for it, so that V stays
the third operand. -/
def prefixText (name : String) (a b : HostOperand) (rest : String) : String :=
  name ++ " " ++ a.text.getD "0" ++
    (match b.text with
    | some y => ", " ++ y
    | none => if rest == "" then "" else ", 0") ++ rest

/-- `<x> <sign> <n>`, the convenience operators (R73). DESIGN CHOICE (notes/assumptions/17.md): an omitted operand is
written as 0. -/
def signText (sign : String) (a b : HostOperand) : String :=
  a.text.getD "0" ++ " " ++ sign ++ " " ++ b.text.getD "0"

/-- The right side of a line (R73, R74). A raw command word is written `(CMD n)`, as in 95_test_vectors.md P5. -/
def operationText (a b : HostOperand) : Operation → String
  | .core i => prefixText (Instr.mnemonic i) a b (Instr.valueText i)
  | .raw cmd => prefixText ("(CMD " ++ toString cmd.toNat ++ ")") a b ""
  | .pseudo (.bset t) => prefixText ("bset." ++ t.text) a b ""
  | .pseudo (.bclr t) => prefixText ("bclr." ++ t.text) a b ""
  | .pseudo (.not t) => prefixText ("not." ++ t.text) a b ""
  | .pseudo .lowbyte => prefixText "lowbyte" a b ""
  | .pseudo .highbyte => prefixText "highbyte" a b ""
  | .pseudo .lowword => prefixText "lowword" a b ""
  | .pseudo .highword => prefixText "highword" a b ""
  | .pseudo (.rotl t) => prefixText ("rotl." ++ t.text) a b ""
  | .pseudo (.rotr t) => prefixText ("rotr." ++ t.text) a b ""
  | .pseudo (.rotlSign t) => signText ("<<<." ++ t.text) a b
  | .pseudo (.rotrSign t) => signText (">>>." ++ t.text) a b
  | .pseudo (.bitTest t) => signText ("@." ++ t.text) a b

/-- The left side: one name, or two with a comma between (R73). DESIGN CHOICE (notes/assumptions/17.md): any number of names
is written with commas between, none as the empty text. -/
def destsText : List String → String
  | [] => ""
  | [d] => d
  | d :: rest => d ++ ", " ++ destsText rest

/-- The line as R73 spells it: `<dests> = <operation>`. -/
def Line.text (l : Line) : String := destsText l.dests ++ " = " ++ operationText l.a l.b l.op

/-! ### The host runs lines -/

/-- The values a response delivers (R73). -/
def Result.values (r : Response) : Result → List DWord
  | .fromY => [r.y]
  | .fromZ => [r.z]
  | .fromT => [if r.t then 1 else 0]
  | .fromYZ => [r.y, r.z]

/-- The host runs a line: it presents the command and assigns the results. A response with ILL = 1 "is not a value that a
claim may compute with" (R231), so it assigns nothing. A line with an unassigned variable presents nothing
(DESIGN CHOICE, notes/assumptions/13.md).
DESIGN CHOICE (notes/assumptions/18.md): R73 is silent on a line whose left side has more or fewer names than its
operation has results; here names and results are paired from the left and what is left over on either side is dropped,
so one name for a decompose takes Y and the second of two names for a rol is not assigned. -/
def runLine (l : Line) (vars : HostVars) (s : State) : HostVars × State :=
  match l.command vars with
  | none => (vars, s)
  | some c =>
    match (serve c s).response with
    | some r => (if r.ill then vars else (l.dests.zip (l.op.result.values r)) ++ vars, serve c s)
    | none => (vars, serve c s)

/-- The host runs its lines in order (10_state.md R27, 95_test_vectors.md section 3). -/
def runLines : List Line → HostVars → State → HostVars × State
  | [], vars, s => (vars, s)
  | l :: rest, vars, s => runLines rest (runLine l vars s).1 (runLine l vars s).2

end Sys2Proof.Machine
end

