-- ==== Sys2Proof/Safety.lean ====
section
/-! DEFINITION. The terms the statements use: what it means that an operation gives a response, the bits of a result,
what a response may look like, when a command is the host's fault, and the numbers binary32 patterns stand for. -/

namespace Sys2Proof.Machine

/-- Operation `i` with A and B on the operand ports completes from EVERY state, and its next state is that state with
the command taken and `r` as the response: the operand ports unchanged, nothing else written (R24, R46). -/
def Gives (i : Instr) (a b : DWord) (r : Response) : Prop :=
  ∀ s : State, s.a = a → s.b = b → exec i s = .next { cmd := none, a := a, b := b, response := some r }

/-- `y` is the zero-extension of the n-bit value whose bit i is `f i` (R8, R25). -/
def BitsOf (y : DWord) (n : Nat) (f : Nat → Bool) : Prop :=
  ∀ i, i < 32 → y.getLsbD i = (decide (i < n) && f i)

/-- A port that holds the byte `v` in bits 7:0 and anything in bits 31:8 (R25, R65). -/
def byteIn (hi : BitVec 24) (v : Byte) : DWord := hi ++ v

/-- A port that holds the word `v` in bits 15:0 and anything in bits 31:16 (R25, R65). -/
def wordIn (hi : BitVec 16) (v : Word) : DWord := hi ++ v

/-- Bits n-1:0 of a port, zero-extended (R25). -/
def lowBits (n : Nat) (p : DWord) : DWord := BitVec.ofNat 32 (p.toNat % 2 ^ n)

/-- The reduced index or count as R67 writes it: `sint32(B) mod N`. -/
def reduced (n : Nat) (b : DWord) : Nat := (b.toInt % (n : Int)).toNat

/-- The operation reads no more than bits na-1:0 of A and nb-1:0 of B (R65, R66). -/
def ReadsOnly (i : Instr) (na nb : Nat) : Prop :=
  ∀ a b r, Gives i a b r ↔ Gives i (lowBits na a) (lowBits nb b) r

/-- Every result the operation returns has at most ny bits on Y and nz on Z (R25). -/
def ResultWidths (i : Instr) (ny nz : Nat) : Prop :=
  ∀ a b, ∃ r, Gives i a b r ∧ r.y.toNat < 2 ^ ny ∧ r.z.toNat < 2 ^ nz

/-- Get/set consistency at width n (R107, R141, R181). -/
def GetSetConsistent (get : Instr) (set : Bool → Instr) (n : Nat) : Prop :=
  ∀ (a b : DWord) (x : Bool), ∃ y, Gives (set x) a b ⟨y, 0, false, false⟩ ∧ Gives get y b ⟨0, 0, x, false⟩ ∧
    ∀ j : DWord, reduced n j ≠ reduced n b →
      ∃ t, Gives get a j ⟨0, 0, t, false⟩ ∧ Gives get y j ⟨0, 0, t, false⟩

/-- Rotate inverse and full rotation at width n (R108, R142, R182). -/
def RotateInverse (rol ror : Instr) (n : Nat) : Prop :=
  (∀ a k : DWord, ∃ y, Gives rol a k ⟨y, 0, false, false⟩ ∧ Gives ror y k ⟨lowBits n a, 0, false, false⟩) ∧
  (∀ a : DWord, Gives rol a (BitVec.ofNat 32 n) ⟨lowBits n a, 0, false, false⟩)

/-- The operation undoes itself at width n (R109, R110, R145 and the rules above them in the wider tiers). -/
def Involution (op : Instr) (n : Nat) : Prop :=
  ∀ a b b' : DWord, ∃ y, Gives op a b ⟨y, 0, false, false⟩ ∧ Gives op y b' ⟨lowBits n a, 0, false, false⟩

/-- Compose and decompose at width n with halves of width h undo each other (R140, R180). -/
def RoundTrip (compose decompose : Instr) (n h : Nat) : Prop :=
  (∀ a b : DWord, ∃ y z, Gives decompose a b ⟨y, z, false, false⟩ ∧
    Gives compose y z ⟨lowBits n a, 0, false, false⟩) ∧
  (∀ a b b' : DWord, ∃ y, Gives compose a b ⟨y, 0, false, false⟩ ∧
    Gives decompose y b' ⟨lowBits h a, lowBits h b, false, false⟩)

/-- R70's list of the illegal command words, read as it is written. -/
def listedIllegal (c : BitVec 8) : Bool :=
  let tier := c.extractLsb' 4 2
  let fn := (c.extractLsb' 0 4).toNat
  c.getLsbD 7 ||
  (!c.getLsbD 7 && c.getLsbD 6 && c != 0x41 && c != 0x51 && c != 0x61) ||
  (c.extractLsb' 6 2 == 0 &&
    ((tier == 0b00 && decide (0x6 ≤ fn)) || (tier == 0b01 && decide (0x9 ≤ fn)) ||
     (tier == 0b10 && decide (0x9 ≤ fn)) || (tier == 0b11 && decide (0x1 ≤ fn))))

/-- The opcode map of R68, row by row: the CMD value with V = 0, the mask, and the operation for each value of V. -/
def opcodeMap : List (BitVec 8 × BitVec 8 × (Bool → Instr)) :=
  [(0x00, 0xFF, fun _ => .getB), (0x01, 0xBF, .setB), (0x02, 0xFF, fun _ => .rolB), (0x03, 0xFF, fun _ => .rorB),
   (0x04, 0xFF, fun _ => .revB), (0x05, 0xFF, fun _ => .invB)] ++
  [(0x10, 0xFF, fun _ => .getW), (0x11, 0xBF, .setW), (0x12, 0xFF, fun _ => .rolW), (0x13, 0xFF, fun _ => .rorW),
   (0x14, 0xFF, fun _ => .revW), (0x15, 0xFF, fun _ => .invW), (0x16, 0xFF, fun _ => .composeW),
   (0x17, 0xFF, fun _ => .decomposeW), (0x18, 0xFF, fun _ => .swapW)] ++
  [(0x20, 0xFF, fun _ => .getD), (0x21, 0xBF, .setD), (0x22, 0xFF, fun _ => .rolD), (0x23, 0xFF, fun _ => .rorD),
   (0x24, 0xFF, fun _ => .revD), (0x25, 0xFF, fun _ => .invD), (0x26, 0xFF, fun _ => .composeD),
   (0x27, 0xFF, fun _ => .decomposeD), (0x28, 0xFF, fun _ => .swapD), (0x30, 0xFF, fun _ => .fdecode)]

/-- The rounded 24-bit value `q` of R214's zero-exponent class. -/
def zeroExponentQ (f : BitVec 23) : BitVec 24 :=
  let q : BitVec 24 := (0x800000#24 + f.setWidth 24) >>> 1
  if f.getLsbD 0 && q.getLsbD 0 then q + 1 else q

/-- What R24, R25, R100, R130, R170 and R231 leave possible on the output ports: with ILL every result is 0; T excludes
the other results; and a second result comes with two halves of at most 16 bits. -/
abbrev Response.Legal (r : Response) : Prop :=
  (r.ill = true → r.y = 0 ∧ r.z = 0 ∧ r.t = false) ∧
  (r.t = true → r.y = 0 ∧ r.z = 0) ∧
  r.z.toNat < 65536 ∧
  (r.z ≠ 0 → r.y.toNat < 65536)

/-- Every response standing on the ports is a possible one. -/
abbrev State.PortsLegal (s : State) : Prop := ∀ r ∈ s.response, r.Legal

/-- The response standing on the ports is one the block gives to some command (R261: "its responses exist only as
results of commands"). -/
def State.ResponseEarned (s : State) : Prop :=
  ∀ r ∈ s.response, ∃ c : Command, (serve c State.reset).response = some r

/-- A host program is safe when none of its commands is illegal, whatever state it starts from (R231: the fault is the
host's program's). -/
abbrev SafeProgram (cs : List Command) : Prop := ∀ c ∈ cs, ∃ i, decode c.cmd = .ok i

/-- The number a finite binary32 pattern stands for (R12, R214, 93_implementation_defined.md K2). -/
def binary32Value (p : DWord) : ℚ :=
  let e := (p.extractLsb' 23 8).toNat
  let f := (p.extractLsb' 0 23).toNat
  let magnitude : ℚ :=
    if e = 0 then (f : ℚ) * (2 : ℚ) ^ (-149 : ℤ) else ((2 ^ 23 + f : ℕ) : ℚ) * (2 : ℚ) ^ ((e : ℤ) - 150)
  if p.getLsbD 31 then -magnitude else magnitude

/-- A binary32 pattern is finite when its raw exponent field is not 255 (R214). -/
abbrev Finite32 (p : DWord) : Prop := p.extractLsb' 23 8 ≠ 0xFF#8

/-- The number a `ExactReal` stands for. -/
def ExactReal.value (x : ExactReal) : ℚ :=
  let magnitude : ℚ := (x.mag : ℚ) * (2 : ℚ) ^ x.exp
  if x.neg then -magnitude else magnitude

end Sys2Proof.Machine
end

