-- ==== Sys2Proof/Certificates/Slice0/Obligations.lean ====
section
/-! DEFINITION. The statements for the provers. A response is written ⟨Y, Z, T, ILL⟩. `Gives i a b r` says that
operation i completes with response r from every state whose ports hold a and b, and changes nothing else. -/

open Sys2Proof Sys2Proof.Machine

/-! ### Byte tier -/

/-- R101, whole: the encoding, T = bit `idx_8(B)` of A[7:0] whatever A[31:8] holds, the wrapping indices, the example. -/
def Obligations.GetByteReadsIndexedBit : Prop :=
  decode 0x00 = .ok .getB ∧
  (∀ (hi : BitVec 24) (v : Byte) (b : DWord),
    Gives .getB (byteIn hi v) b ⟨0, 0, v.getLsbD (reduced 8 b), false⟩) ∧
  (∀ (hi : BitVec 24) (v : Byte),
    Gives .getB (byteIn hi v) 8 ⟨0, 0, v.getLsbD 0, false⟩ ∧
    Gives .getB (byteIn hi v) 0xFFFFFFFF ⟨0, 0, v.getLsbD 7, false⟩ ∧
    Gives .getB (byteIn hi v) 0x80000000 ⟨0, 0, v.getLsbD 0, false⟩) ∧
  Gives .getB 189 7 ⟨0, 0, true, false⟩

/-- R102, whole: both encodings, Y = A[7:0] with bit `idx_8(B)` forced to V, the unchanged case, index -1, the example. -/
def Obligations.SetByteForcesIndexedBit : Prop :=
  decode 0x01 = .ok (.setB false) ∧ decode 0x41 = .ok (.setB true) ∧
  (∀ (hi : BitVec 24) (v : Byte) (b : DWord) (x : Bool), ∃ y,
    Gives (.setB x) (byteIn hi v) b ⟨y, 0, false, false⟩ ∧
    BitsOf y 8 (fun i => if i = reduced 8 b then x else v.getLsbD i)) ∧
  (∀ (hi : BitVec 24) (v : Byte) (b : DWord),
    Gives (.setB (v.getLsbD (reduced 8 b))) (byteIn hi v) b ⟨v.setWidth 32, 0, false, false⟩) ∧
  (∀ (hi : BitVec 24) (v : Byte),
    Gives (.setB true) (byteIn hi v) 0xFFFFFFFF ⟨(v ||| 0x80#8).setWidth 32, 0, false, false⟩) ∧
  Gives (.setB true) 52 7 ⟨180, 0, false, false⟩

/-- R103: the encoding, the widen-shift-fold pseudocode, counts that are multiples of 8, the example. What the rule marks as
its own inference (the per-bit form, negative counts) is stated in `RotatesMoveBitsRoundTheWidth`. -/
def Obligations.RotateLeftByteResult : Prop :=
  decode 0x02 = .ok .rolB ∧
  (∀ (hi : BitVec 24) (v : Byte) (b : DWord), ∃ y,
    Gives .rolB (byteIn hi v) b ⟨y, 0, false, false⟩ ∧
    y = (((v.setWidth 16 <<< reduced 8 b).extractLsb' 0 8) |||
      ((v.setWidth 16 <<< reduced 8 b).extractLsb' 8 8)).setWidth 32) ∧
  (∀ (hi : BitVec 24) (v : Byte) (n : Int),
    Gives .rolB (byteIn hi v) (BitVec.ofInt 32 (8 * n)) ⟨v.setWidth 32, 0, false, false⟩) ∧
  Gives .rolB 240 5 ⟨30, 0, false, false⟩

/-- R104: the encoding, the pseudocode, count 0, the example; the rule's own inferences are in
`RotatesMoveBitsRoundTheWidth`. -/
def Obligations.RotateRightByteResult : Prop :=
  decode 0x03 = .ok .rorB ∧
  (∀ (hi : BitVec 24) (v : Byte) (b : DWord), ∃ y,
    Gives .rorB (byteIn hi v) b ⟨y, 0, false, false⟩ ∧
    y = ((((v.setWidth 16 <<< 8) >>> reduced 8 b).extractLsb' 8 8) |||
      (((v.setWidth 16 <<< 8) >>> reduced 8 b).extractLsb' 0 8)).setWidth 32) ∧
  (∀ (hi : BitVec 24) (v : Byte) (n : Int),
    Gives .rorB (byteIn hi v) (BitVec.ofInt 32 (8 * n)) ⟨v.setWidth 32, 0, false, false⟩) ∧
  Gives .rorB 240 5 ⟨135, 0, false, false⟩

/-- R105, whole: the encoding, bit i of the result is bit 7-i of A[7:0], B unused, the fixed points, the example. -/
def Obligations.ReverseByteResult : Prop :=
  decode 0x04 = .ok .revB ∧
  (∀ (hi : BitVec 24) (v : Byte) (b : DWord), ∃ y,
    Gives .revB (byteIn hi v) b ⟨y, 0, false, false⟩ ∧ BitsOf y 8 (fun i => v.getLsbD (7 - i))) ∧
  (∀ v ∈ [0x00#8, 0xFF#8, 0x81#8, 0x3C#8, 0x5A#8, 0xA5#8, 0x18#8, 0xE7#8], ∀ (hi : BitVec 24) (b : DWord),
    Gives .revB (byteIn hi v) b ⟨v.setWidth 32, 0, false, false⟩) ∧
  Gives .revB 1 0 ⟨128, 0, false, false⟩

/-- R106, whole: the encoding, the complement bit by bit and as `~v`, B unused, Y[31:8] = 0, the example. -/
def Obligations.InvertByteResult : Prop :=
  decode 0x05 = .ok .invB ∧
  (∀ (hi : BitVec 24) (v : Byte) (b : DWord),
    Gives .invB (byteIn hi v) b ⟨(~~~v).setWidth 32, 0, false, false⟩ ∧
    BitsOf ((~~~v).setWidth 32) 8 (fun i => !v.getLsbD i)) ∧
  (∀ (hi : BitVec 24) (b : DWord),
    Gives .invB (byteIn hi 0x00) b ⟨0xFF, 0, false, false⟩ ∧ Gives .invB (byteIn hi 0xFF) b ⟨0, 0, false, false⟩) ∧
  Gives .invB 0x35 0 ⟨0xCA, 0, false, false⟩

/-! ### Word tier -/

/-- R131: the encoding, T from the half that holds the bit, the indices at the halves' border and the wrapping ones, the
example. The rule's own inference (T is bit `idx_16(B)` of the word) is in `LayeredGetAndSetActOnTheWholeValue`. -/
def Obligations.GetWordReadsIndexedBit : Prop :=
  decode 0x10 = .ok .getW ∧
  (∀ (hi : BitVec 16) (v : Word) (b : DWord), ∃ t,
    Gives .getW (wordIn hi v) b ⟨0, 0, t, false⟩ ∧
    t = (if reduced 16 b ≥ 8 then (v.extractLsb' 8 8).getLsbD (reduced 16 b - 8)
      else (v.extractLsb' 0 8).getLsbD (reduced 16 b))) ∧
  (∀ (hi : BitVec 16) (v : Word),
    Gives .getW (wordIn hi v) 7 ⟨0, 0, (v.extractLsb' 0 8).msb, false⟩ ∧
    Gives .getW (wordIn hi v) 8 ⟨0, 0, (v.extractLsb' 8 8).getLsbD 0, false⟩ ∧
    Gives .getW (wordIn hi v) 16 ⟨0, 0, v.getLsbD 0, false⟩ ∧
    Gives .getW (wordIn hi v) 0xFFFFFFFF ⟨0, 0, v.getLsbD 15, false⟩) ∧
  Gives .getW 0x0100 8 ⟨0, 0, true, false⟩

/-- R132: both encodings, the half that holds the bit set and the other returned unchanged, the unchanged case, index -1,
the example. -/
def Obligations.SetWordForcesIndexedBit : Prop :=
  decode 0x11 = .ok (.setW false) ∧ decode 0x51 = .ok (.setW true) ∧
  (∀ (hi : BitVec 16) (v : Word) (b : DWord) (x : Bool), ∃ y,
    Gives (.setW x) (wordIn hi v) b ⟨y, 0, false, false⟩ ∧
    (if reduced 16 b ≥ 8 then
      ∃ h : Byte, y = (h ++ v.extractLsb' 0 8).setWidth 32 ∧
        ∀ i < 8, h.getLsbD i = if i = reduced 16 b - 8 then x else (v.extractLsb' 8 8).getLsbD i
    else
      ∃ l : Byte, y = (v.extractLsb' 8 8 ++ l).setWidth 32 ∧
        ∀ i < 8, l.getLsbD i = if i = reduced 16 b then x else (v.extractLsb' 0 8).getLsbD i)) ∧
  (∀ (hi : BitVec 16) (v : Word) (b : DWord),
    Gives (.setW (v.getLsbD (reduced 16 b))) (wordIn hi v) b ⟨v.setWidth 32, 0, false, false⟩) ∧
  (∀ (hi : BitVec 16) (v : Word),
    Gives (.setW true) (wordIn hi v) 0xFFFFFFFF ⟨(v ||| 0x8000#16).setWidth 32, 0, false, false⟩) ∧
  Gives (.setW true) 0 15 ⟨0x8000, 0, false, false⟩

/-- R133: the encoding, the pseudocode, counts that are multiples of 16, negative counts, the example. The rule's own
inferences (the per-bit form, B = 8 against swap.w) are in `RotatesMoveBitsRoundTheWidth`. -/
def Obligations.RotateLeftWordResult : Prop :=
  decode 0x12 = .ok .rolW ∧
  (∀ (hi : BitVec 16) (v : Word) (b : DWord), ∃ y,
    Gives .rolW (wordIn hi v) b ⟨y, 0, false, false⟩ ∧
    y = (((v.setWidth 32 <<< reduced 16 b).extractLsb' 0 16) |||
      ((v.setWidth 32 <<< reduced 16 b).extractLsb' 16 16)).setWidth 32) ∧
  (∀ (hi : BitVec 16) (v : Word) (n : Int),
    Gives .rolW (wordIn hi v) (BitVec.ofInt 32 (16 * n)) ⟨v.setWidth 32, 0, false, false⟩) ∧
  (∀ a b r, Gives .rolW a (-b) r ↔ Gives .rorW a b r) ∧
  Gives .rolW 0x8001 1 ⟨0x0003, 0, false, false⟩

/-- R134: the encoding, the pseudocode, count 0, the rotate left it equals, the example. -/
def Obligations.RotateRightWordResult : Prop :=
  decode 0x13 = .ok .rorW ∧
  (∀ (hi : BitVec 16) (v : Word) (b : DWord), ∃ y,
    Gives .rorW (wordIn hi v) b ⟨y, 0, false, false⟩ ∧
    y = ((((v.setWidth 32 <<< 16) >>> reduced 16 b).extractLsb' 16 16) |||
      (((v.setWidth 32 <<< 16) >>> reduced 16 b).extractLsb' 0 16)).setWidth 32) ∧
  (∀ (hi : BitVec 16) (v : Word) (n : Int),
    Gives .rorW (wordIn hi v) (BitVec.ofInt 32 (16 * n)) ⟨v.setWidth 32, 0, false, false⟩) ∧
  (∀ (a : DWord) (k : Fin 16) (r : Response),
    Gives .rorW a (BitVec.ofNat 32 k.val) r ↔ Gives .rolW a (BitVec.ofNat 32 ((16 - k.val) % 16)) r) ∧
  Gives .rorW 0x8001 1 ⟨0xC000, 0, false, false⟩

/-- R135: the encoding, the full 16-bit mirror, B unused, the fixed points, the per-byte reverse in place that it is not, the
example. The rule's own inference is in `MirrorIsSwapAndHalfReverse`. -/
def Obligations.ReverseWordResult : Prop :=
  decode 0x14 = .ok .revW ∧
  (∀ (hi : BitVec 16) (v : Word) (b : DWord), ∃ y,
    Gives .revW (wordIn hi v) b ⟨y, 0, false, false⟩ ∧ BitsOf y 16 (fun i => v.getLsbD (15 - i))) ∧
  (∀ v ∈ [0x0000#16, 0xFFFF#16, 0x8001#16], ∀ (hi : BitVec 16) (b : DWord),
    Gives .revW (wordIn hi v) b ⟨v.setWidth 32, 0, false, false⟩) ∧
  Gives .revW 1 0 ⟨0x8000, 0, false, false⟩ ∧ ¬ Gives .revW 1 0 ⟨0x0080, 0, false, false⟩

/-- R136, whole: the encoding, the byte-tier invert of each half, which is `~v`; Y[31:16] = 0; the example. -/
def Obligations.InvertWordResult : Prop :=
  decode 0x15 = .ok .invW ∧
  (∀ (hi : BitVec 16) (v : Word) (b : DWord), ∃ yl yh,
    Gives .invB ((v.extractLsb' 0 8).setWidth 32) b ⟨yl, 0, false, false⟩ ∧
    Gives .invB ((v.extractLsb' 8 8).setWidth 32) b ⟨yh, 0, false, false⟩ ∧
    Gives .invW (wordIn hi v) b ⟨(yh <<< 8) ||| yl, 0, false, false⟩ ∧
    (yh <<< 8) ||| yl = (~~~v).setWidth 32) ∧
  (∀ (hi : BitVec 16) (b : DWord), Gives .invW (wordIn hi 0x0000) b ⟨0xFFFF, 0, false, false⟩) ∧
  Gives .invW 0x00FF 0 ⟨0xFF00, 0, false, false⟩

/-- R137, whole: the encoding, `(high << 8) | low` of A[7:0] and B[7:0], the bits above ignored, the examples. -/
def Obligations.ComposeWordResult : Prop :=
  decode 0x16 = .ok .composeW ∧
  (∀ (ha hb : BitVec 24) (h l : Byte), ∃ y,
    Gives .composeW (byteIn ha h) (byteIn hb l) ⟨y, 0, false, false⟩ ∧
    y = (h.setWidth 32 <<< 8) ||| l.setWidth 32 ∧ y.extractLsb' 8 8 = h ∧ y.extractLsb' 0 8 = l) ∧
  Gives .composeW 0x1FF 0x2FF ⟨0xFFFF, 0, false, false⟩ ∧
  Gives .composeW 0xAB 0xCD ⟨0xABCD, 0, false, false⟩

/-- R138, whole: the encoding, the high byte on Y and the low byte on Z, A[31:16] ignored, the example. -/
def Obligations.DecomposeWordResult : Prop :=
  decode 0x17 = .ok .decomposeW ∧
  (∀ (hi : BitVec 16) (v : Word) (b : DWord),
    Gives .decomposeW (wordIn hi v) b
      ⟨(v.extractLsb' 8 8).setWidth 32, (v.extractLsb' 0 8).setWidth 32, false, false⟩) ∧
  Gives .decomposeW 0xABCD 0 ⟨0xAB, 0xCD, false, false⟩

/-- R139, whole: the encoding, the bytes exchanged, equal halves fixed, the example. -/
def Obligations.SwapWordResult : Prop :=
  decode 0x18 = .ok .swapW ∧
  (∀ (hi : BitVec 16) (h l : Byte) (b : DWord),
    Gives .swapW (wordIn hi (h ++ l)) b ⟨(l.setWidth 32 <<< 8) ||| h.setWidth 32, 0, false, false⟩) ∧
  (∀ (hi : BitVec 16) (h : Byte) (b : DWord),
    Gives .swapW (wordIn hi (h ++ h)) b ⟨(h.setWidth 32 <<< 8) ||| h.setWidth 32, 0, false, false⟩) ∧
  Gives .swapW 0xABCD 0 ⟨0xCDAB, 0, false, false⟩

/-! ### Double-word tier -/

/-- R171: the encoding, T from the half that holds the bit, the indices at the halves' border and the wrapping ones, the
example. The rule's own inference is in `LayeredGetAndSetActOnTheWholeValue`. -/
def Obligations.GetDwordReadsIndexedBit : Prop :=
  decode 0x20 = .ok .getD ∧
  (∀ v b : DWord, ∃ t,
    Gives .getD v b ⟨0, 0, t, false⟩ ∧
    t = (if reduced 32 b ≥ 16 then (v.extractLsb' 16 16).getLsbD (reduced 32 b - 16)
      else (v.extractLsb' 0 16).getLsbD (reduced 32 b))) ∧
  (∀ v : DWord,
    Gives .getD v 15 ⟨0, 0, (v.extractLsb' 0 16).msb, false⟩ ∧
    Gives .getD v 16 ⟨0, 0, (v.extractLsb' 16 16).getLsbD 0, false⟩ ∧
    Gives .getD v 32 ⟨0, 0, v.getLsbD 0, false⟩ ∧
    Gives .getD v 0xFFFFFFFF ⟨0, 0, v.getLsbD 31, false⟩ ∧
    Gives .getD v 0x80000000 ⟨0, 0, v.getLsbD 0, false⟩) ∧
  Gives .getD 0x80000000 31 ⟨0, 0, true, false⟩

/-- R172: both encodings, the half that holds the bit set and the other returned unchanged, the unchanged case, index -1,
the example. -/
def Obligations.SetDwordForcesIndexedBit : Prop :=
  decode 0x21 = .ok (.setD false) ∧ decode 0x61 = .ok (.setD true) ∧
  (∀ (v b : DWord) (x : Bool), ∃ y,
    Gives (.setD x) v b ⟨y, 0, false, false⟩ ∧
    (if reduced 32 b ≥ 16 then
      ∃ h : Word, y = h ++ v.extractLsb' 0 16 ∧
        ∀ i < 16, h.getLsbD i = if i = reduced 32 b - 16 then x else (v.extractLsb' 16 16).getLsbD i
    else
      ∃ l : Word, y = v.extractLsb' 16 16 ++ l ∧
        ∀ i < 16, l.getLsbD i = if i = reduced 32 b then x else (v.extractLsb' 0 16).getLsbD i)) ∧
  (∀ v b : DWord, Gives (.setD (v.getLsbD (reduced 32 b))) v b ⟨v, 0, false, false⟩) ∧
  (∀ v : DWord, Gives (.setD false) v 0xFFFFFFFF ⟨v &&& 0x7FFFFFFF#32, 0, false, false⟩) ∧
  Gives (.setD false) 0xFFFFFFFF 16 ⟨0xFFFEFFFF, 0, false, false⟩

/-- R173: the encoding, the pseudocode, counts that are multiples of 32, negative counts, the example. -/
def Obligations.RotateLeftDwordResult : Prop :=
  decode 0x22 = .ok .rolD ∧
  (∀ v b : DWord, ∃ y,
    Gives .rolD v b ⟨y, 0, false, false⟩ ∧
    y = ((v.setWidth 64 <<< reduced 32 b).extractLsb' 0 32) |||
      ((v.setWidth 64 <<< reduced 32 b).extractLsb' 32 32)) ∧
  (∀ (v : DWord) (n : Int), Gives .rolD v (BitVec.ofInt 32 (32 * n)) ⟨v, 0, false, false⟩) ∧
  (∀ a b r, Gives .rolD a (-b) r ↔ Gives .rorD a b r) ∧
  Gives .rolD 0x80000001 4 ⟨0x00000018, 0, false, false⟩

/-- R174: the encoding, the pseudocode, count 0, the rotate left it equals, the example. -/
def Obligations.RotateRightDwordResult : Prop :=
  decode 0x23 = .ok .rorD ∧
  (∀ v b : DWord, ∃ y,
    Gives .rorD v b ⟨y, 0, false, false⟩ ∧
    y = (((v.setWidth 64 <<< 32) >>> reduced 32 b).extractLsb' 32 32) |||
      (((v.setWidth 64 <<< 32) >>> reduced 32 b).extractLsb' 0 32)) ∧
  (∀ (v : DWord) (n : Int), Gives .rorD v (BitVec.ofInt 32 (32 * n)) ⟨v, 0, false, false⟩) ∧
  (∀ (a : DWord) (k : Fin 32) (r : Response),
    Gives .rorD a (BitVec.ofNat 32 k.val) r ↔ Gives .rolD a (BitVec.ofNat 32 ((32 - k.val) % 32)) r) ∧
  Gives .rorD 0x80000001 4 ⟨0x18000000, 0, false, false⟩

/-- R175: the encoding, the full 32-bit mirror, B unused, the fixed points, the per-word reverse in place that it is not,
the example. -/
def Obligations.ReverseDwordResult : Prop :=
  decode 0x24 = .ok .revD ∧
  (∀ v b : DWord, ∃ y,
    Gives .revD v b ⟨y, 0, false, false⟩ ∧ BitsOf y 32 (fun i => v.getLsbD (31 - i))) ∧
  (∀ v ∈ [0x00000000#32, 0xFFFFFFFF#32, 0x80000001#32], ∀ b, Gives .revD v b ⟨v, 0, false, false⟩) ∧
  Gives .revD 1 0 ⟨0x80000000, 0, false, false⟩ ∧ ¬ Gives .revD 1 0 ⟨0x00008000, 0, false, false⟩

/-- R176, whole: the encoding, the word-tier invert of each half, which is `~v`; the example. -/
def Obligations.InvertDwordResult : Prop :=
  decode 0x25 = .ok .invD ∧
  (∀ v b : DWord, ∃ yl yh,
    Gives .invW ((v.extractLsb' 0 16).setWidth 32) b ⟨yl, 0, false, false⟩ ∧
    Gives .invW ((v.extractLsb' 16 16).setWidth 32) b ⟨yh, 0, false, false⟩ ∧
    Gives .invD v b ⟨(yh <<< 16) ||| yl, 0, false, false⟩ ∧ (yh <<< 16) ||| yl = ~~~v) ∧
  (∀ b, Gives .invD 0x00000000 b ⟨0xFFFFFFFF, 0, false, false⟩) ∧
  Gives .invD 0x0000FFFF 0 ⟨0xFFFF0000, 0, false, false⟩

/-- R177, whole: the encoding, `(high << 16) | low` of A[15:0] and B[15:0], the bits above ignored, the examples. -/
def Obligations.ComposeDwordResult : Prop :=
  decode 0x26 = .ok .composeD ∧
  (∀ (ha hb h l : Word), ∃ y,
    Gives .composeD (wordIn ha h) (wordIn hb l) ⟨y, 0, false, false⟩ ∧
    y = (h.setWidth 32 <<< 16) ||| l.setWidth 32 ∧ y.extractLsb' 16 16 = h ∧ y.extractLsb' 0 16 = l) ∧
  Gives .composeD 0x1C3C0 0x9400 ⟨0xC3C09400, 0, false, false⟩ ∧
  Gives .composeD 0xC3C0 0x9400 ⟨0xC3C09400, 0, false, false⟩

/-- R178, whole: the encoding, the high word on Y and the low word on Z, the example. -/
def Obligations.DecomposeDwordResult : Prop :=
  decode 0x27 = .ok .decomposeD ∧
  (∀ v b : DWord,
    Gives .decomposeD v b ⟨(v.extractLsb' 16 16).setWidth 32, (v.extractLsb' 0 16).setWidth 32, false, false⟩) ∧
  Gives .decomposeD 0x12345678 0 ⟨0x1234, 0x5678, false, false⟩

/-- R179, whole: the words exchanged and the bytes inside each kept; equal halves fixed; the example. -/
def Obligations.SwapDwordResult : Prop :=
  decode 0x28 = .ok .swapD ∧
  (∀ (h l : Word) (b : DWord),
    Gives .swapD (h ++ l) b ⟨(l.setWidth 32 <<< 16) ||| h.setWidth 32, 0, false, false⟩) ∧
  (∀ (h : Word) (b : DWord), Gives .swapD (h ++ h) b ⟨(h ++ h : BitVec (16 + 16)), 0, false, false⟩) ∧
  Gives .swapD 0x12345678 0 ⟨0x56781234, 0, false, false⟩ ∧
  ¬ Gives .swapD 0x12345678 0 ⟨0x78563412, 0, false, false⟩

/-! ### What the rules of the tiers mark as their own inferences -/

/-- The spec's inferences "[derived: from the pseudocode]" and "[derived: from this rule and ...]" of 40_byte.md, 41_word.md
and 42_dword.md on the rotates: bit i comes from i-k or i+k modulo the width; a negative count rotates the other way;
a rotate right is the rotate left by the rest of the width; a rotate by half the width is the swap. -/
def Obligations.RotatesMoveBitsRoundTheWidth : Prop :=
  (∀ a b, ∃ y, Gives .rolB a b ⟨y, 0, false, false⟩ ∧
    BitsOf y 8 (fun i => a.getLsbD (((i : Int) - reduced 8 b) % 8).toNat)) ∧
  (∀ a b, ∃ y, Gives .rorB a b ⟨y, 0, false, false⟩ ∧
    BitsOf y 8 (fun i => a.getLsbD (((i : Int) + reduced 8 b) % 8).toNat)) ∧
  (∀ a b, ∃ y, Gives .rolW a b ⟨y, 0, false, false⟩ ∧
    BitsOf y 16 (fun i => a.getLsbD (((i : Int) - reduced 16 b) % 16).toNat)) ∧
  (∀ a b, ∃ y, Gives .rorW a b ⟨y, 0, false, false⟩ ∧
    BitsOf y 16 (fun i => a.getLsbD (((i : Int) + reduced 16 b) % 16).toNat)) ∧
  (∀ a b, ∃ y, Gives .rolD a b ⟨y, 0, false, false⟩ ∧
    BitsOf y 32 (fun i => a.getLsbD (((i : Int) - reduced 32 b) % 32).toNat)) ∧
  (∀ a b, ∃ y, Gives .rorD a b ⟨y, 0, false, false⟩ ∧
    BitsOf y 32 (fun i => a.getLsbD (((i : Int) + reduced 32 b) % 32).toNat)) ∧
  (∀ a b y, Gives .rolB a (-b) ⟨y, 0, false, false⟩ ↔ Gives .rorB a b ⟨y, 0, false, false⟩) ∧
  (∀ (a : DWord) (k : Fin 8) (y : DWord), Gives .rorB a (BitVec.ofNat 32 k.val) ⟨y, 0, false, false⟩ ↔
    Gives .rolB a (BitVec.ofNat 32 ((8 - k.val) % 8)) ⟨y, 0, false, false⟩) ∧
  (∀ a b y, Gives .rolW a 8 ⟨y, 0, false, false⟩ ↔ Gives .swapW a b ⟨y, 0, false, false⟩) ∧
  (∀ a b y, Gives .rolD a 16 ⟨y, 0, false, false⟩ ↔ Gives .swapD a b ⟨y, 0, false, false⟩)

/-- The spec's inferences on get and set of the word and double-word tiers ("This equals `T <- v[k]`", "This equals
`v with [k] := V`", marked derived in 41_word.md and 42_dword.md). -/
def Obligations.LayeredGetAndSetActOnTheWholeValue : Prop :=
  (∀ a b, Gives .getW a b ⟨0, 0, a.getLsbD (reduced 16 b), false⟩) ∧
  (∀ a b, Gives .getD a b ⟨0, 0, a.getLsbD (reduced 32 b), false⟩) ∧
  (∀ a b x, ∃ y, Gives (.setW x) a b ⟨y, 0, false, false⟩ ∧
    BitsOf y 16 (fun i => if i = reduced 16 b then x else a.getLsbD i)) ∧
  (∀ a b x, ∃ y, Gives (.setD x) a b ⟨y, 0, false, false⟩ ∧
    BitsOf y 32 (fun i => if i = reduced 32 b then x else a.getLsbD i))

/-- The spec's inference on the mirrors ("Swapping the bytes and then reversing each byte happens to give the same value as
the full mirror", and the same for words, marked derived in 41_word.md and 42_dword.md). -/
def Obligations.MirrorIsSwapAndHalfReverse : Prop :=
  (∀ (hi : BitVec 16) (v : Word) (b : DWord), ∃ y yl yh,
    Gives .revW (wordIn hi v) b ⟨y, 0, false, false⟩ ∧
    Gives .revB ((v.extractLsb' 0 8).setWidth 32) b ⟨yl, 0, false, false⟩ ∧
    Gives .revB ((v.extractLsb' 8 8).setWidth 32) b ⟨yh, 0, false, false⟩ ∧ y = (yl <<< 8) ||| yh) ∧
  (∀ v b : DWord, ∃ y yl yh,
    Gives .revD v b ⟨y, 0, false, false⟩ ∧
    Gives .revW ((v.extractLsb' 0 16).setWidth 32) b ⟨yl, 0, false, false⟩ ∧
    Gives .revW ((v.extractLsb' 16 16).setWidth 32) b ⟨yh, 0, false, false⟩ ∧ y = (yl <<< 16) ||| yh)

/-! ### Float decoder -/

/-- R211, whole: the encoding and the five steps. E and m are the sums of steps 2 and 3, over the rationals; a NaN input
gives P_NAN; any other gives rne32 of a number equal to sign * 2^(E-127) * m. -/
def Obligations.FdecodeFollowsFiveSteps : Prop :=
  decode 0x30 = .ok .fdecode ∧
  (∀ a b : DWord,
    let sign : ℚ := if a.getLsbD 31 then -1 else 1
    let e : ℕ := ∑ i ∈ Finset.range 8, if a.getLsbD (23 + i) then 2 ^ i else 0
    let m : ℚ := 1 + ∑ i ∈ Finset.range 23, if a.getLsbD i then (2 : ℚ) ^ ((i : ℤ) - 23) else 0
    if e = 255 ∧ a.extractLsb' 0 23 ≠ 0#23 then Gives .fdecode a b ⟨Config.pNan, 0, false, false⟩
    else ∃ x : ExactReal, x.value = sign * (2 : ℚ) ^ ((e : ℤ) - 127) * m ∧
      Gives .fdecode a b ⟨rne32 x, 0, false, false⟩) ∧
  Gives .fdecode 0xC3C09400 0 ⟨0xC3C09400, 0, false, false⟩

/-- R6 and R212: every input with E = 255 and a fraction field that is not 0 gives P_NAN, whatever its sign and fraction
are, and P_NAN is a NaN pattern. -/
def Obligations.FdecodeNaNIgnoresSignAndFraction : Prop :=
  (∀ (s : BitVec 1) (f : BitVec 23) (b : DWord), f ≠ 0 →
    Gives .fdecode (s ++ 0xFF#8 ++ f) b ⟨Config.pNan, 0, false, false⟩) ∧
  Config.pNan.extractLsb' 23 8 = 0xFF#8 ∧ Config.pNan.extractLsb' 0 23 ≠ 0#23

/-- The spec's own inference (43_float.md, "Closed form", "[derived: from rule R211 and rule R213]"): the closed form of
fdecode on every input, and what its zero-exponent class yields. -/
def Obligations.FdecodeClosedForm : Prop :=
  (∀ a b : DWord,
    let s := a.extractLsb' 31 1
    let e := (a.extractLsb' 23 8).toNat
    let f := a.extractLsb' 0 23
    if 1 ≤ e ∧ e ≤ 254 then Gives .fdecode a b ⟨a, 0, false, false⟩
    else if e = 255 ∧ f = 0 then
      (a = 0x7F800000 ∨ a = 0xFF800000) ∧ Gives .fdecode a b ⟨a, 0, false, false⟩
    else if e = 255 then Gives .fdecode a b ⟨Config.pNan, 0, false, false⟩
    else Gives .fdecode a b ⟨(s.setWidth 32 <<< 31) ||| (zeroExponentQ f).setWidth 32, 0, false, false⟩) ∧
  (∀ f : BitVec 23,
    0x400000 ≤ (((0x800000#24 + f.setWidth 24) >>> 1) : BitVec 24).toNat ∧
    (((0x800000#24 + f.setWidth 24) >>> 1) : BitVec 24).toNat ≤ 0x7FFFFF ∧
    0x400000 ≤ (zeroExponentQ f).toNat ∧ (zeroExponentQ f).toNat ≤ 0x800000 ∧
    (zeroExponentQ f = 0x800000#24 ↔ f = 0x7FFFFF#23) ∧
    binary32Value ((zeroExponentQ f).setWidth 32) = ((zeroExponentQ f).toNat : ℚ) * (2 : ℚ) ^ (-149 : ℤ)) ∧
  zeroExponentQ 0 = 0x400000#24 ∧ zeroExponentQ 1 = 0x400000#24

/-- The zero, denormal and infinity inputs the spec works out, as its own inference (43_float.md, "[derived: from rule R214]"
and "[derived: from rule R213]"): exponent field 0 keeps the implicit leading 1, and the infinity patterns take the
general formula, whose value ±2^128 rounds to the infinity of the sign. -/
def Obligations.FdecodeZeroDenormalAndInfinityInputs : Prop :=
  (∀ b : DWord,
    Gives .fdecode 0x00000000 b ⟨0x00400000, 0, false, false⟩ ∧ binary32Value 0x00400000 = (2 : ℚ) ^ (-127 : ℤ) ∧
    Gives .fdecode 0x80000000 b ⟨0x80400000, 0, false, false⟩ ∧ binary32Value 0x80400000 = -(2 : ℚ) ^ (-127 : ℤ) ∧
    Gives .fdecode 0x00000001 b ⟨0x00400000, 0, false, false⟩ ∧
    Gives .fdecode 0x007FFFFF b ⟨0x00800000, 0, false, false⟩) ∧
  (∀ neg : Bool, rne32 { neg := neg, mag := 1, exp := 255 - 127 } = if neg then 0xFF800000 else 0x7F800000) ∧
  (∀ a ∈ [0x7F800000#32, 0xFF800000#32], isNaNInput a = false ∧
    (generalFormula a).value = (if a.getLsbD 31 then -1 else 1) * (2 : ℚ) ^ (128 : ℤ) ∧
    ∀ b, Gives .fdecode a b ⟨a, 0, false, false⟩)

/-- R218: the source's two float scenarios, with the fields and the value the rule works out. -/
def Obligations.FdecodeSourceScenarios : Prop :=
  (0xC3C09400#32).getLsbD 31 = true ∧ (0xC3C09400#32).extractLsb' 23 8 = 0x87#8 ∧
  (0xC3C09400#32).extractLsb' 0 23 = 0x409400#23 ∧
  binary32Value 0xC3C09400 = -385.15625 ∧ (-390 : ℚ) < binary32Value 0xC3C09400 ∧
  binary32Value 0xC3C09400 < (-385 : ℚ) ∧
  Gives .fdecode 0xC3C09400 0 ⟨0xC3C09400, 0, false, false⟩ ∧
  Gives .fdecode 0x7FC00000 0 ⟨Config.pNan, 0, false, false⟩

/-- The rounding of R12 and R213, for every number `(-1)^neg * mag * 2^exp` with mag > 0: no finite pattern is nearer than
the result, a tie goes to the even fraction field, the sign is kept, and exactly the magnitudes from the middle
between the largest finite value and 2^128 up give the infinity of the sign. The domain is the model's (log entry 11: the
dyadic numbers, which every product of the decoder is), and 0 is left out (log entry 6). -/
def Obligations.RoundingIsNearestEven : Prop :=
  ∀ x : ExactReal, 0 < x.mag →
    (rne32 x).getLsbD 31 = x.neg ∧
    (Finite32 (rne32 x) ↔ |x.value| < ((2 ^ 25 - 1 : ℕ) : ℚ) * (2 : ℚ) ^ (103 : ℤ)) ∧
    (¬ Finite32 (rne32 x) → rne32 x = if x.neg then 0xFF800000 else 0x7F800000) ∧
    (Finite32 (rne32 x) → ∀ p : DWord, Finite32 p →
      |x.value - binary32Value (rne32 x)| ≤ |x.value - binary32Value p| ∧
      (|x.value - binary32Value (rne32 x)| = |x.value - binary32Value p| →
        binary32Value p ≠ binary32Value (rne32 x) → (rne32 x).getLsbD 0 = false))

/-! ### The laws of the three tiers -/

/-- R107, R141, R181: a bit that was set reads back as written, and every other bit reads as before. -/
def Obligations.GetAfterSet : Prop :=
  GetSetConsistent .getB .setB 8 ∧ GetSetConsistent .getW .setW 16 ∧ GetSetConsistent .getD .setD 32

/-- R108, R142, R182: rotate right undoes rotate left by the same count, and a rotation by the width does nothing. -/
def Obligations.RotateRightUndoesRotateLeft : Prop :=
  RotateInverse .rolB .rorB 8 ∧ RotateInverse .rolW .rorW 16 ∧ RotateInverse .rolD .rorD 32

/-- R109, R110, R143, R144, R183, R184: reverse undoes itself, and so does invert, in every tier. -/
def Obligations.ReverseAndInvertAreInvolutions : Prop :=
  Involution .revB 8 ∧ Involution .revW 16 ∧ Involution .revD 32 ∧
  Involution .invB 8 ∧ Involution .invW 16 ∧ Involution .invD 32

/-- The spec's own inference ("The source does not list this law", 41_word.md and 42_dword.md): swap undoes itself. -/
def Obligations.SwapIsInvolution : Prop :=
  Involution .swapW 16 ∧ Involution .swapD 32

/-- R140, R180: compose and decompose undo each other, as functions and as commands. -/
def Obligations.ComposeDecomposeRoundTrip : Prop :=
  (∀ w : Word, composeWord (highByte w) (lowByte w) = w) ∧
  (∀ d : DWord, composeDoubleWord (highWord d) (lowWord d) = d) ∧
  RoundTrip .composeW .decomposeW 16 8 ∧ RoundTrip .composeD .decomposeD 32 16

/-- R42: bit k of a composed value is bit k of the low half, or bit k less the half width of the high half. -/
def Obligations.MixedWidthView : Prop :=
  (∀ (h l : Byte) (k : Fin 16), ∃ y t,
    Gives .composeW (h.setWidth 32) (l.setWidth 32) ⟨y, 0, false, false⟩ ∧
    y.extractLsb' 8 8 = h ∧ y.extractLsb' 0 8 = l ∧
    Gives .getW y (BitVec.ofNat 32 k.val) ⟨0, 0, t, false⟩ ∧
    (if k.val < 8 then Gives .getB (l.setWidth 32) (BitVec.ofNat 32 k.val) ⟨0, 0, t, false⟩
      else Gives .getB (h.setWidth 32) (BitVec.ofNat 32 (k.val - 8)) ⟨0, 0, t, false⟩)) ∧
  (∀ (h l : Word) (k : Fin 32), ∃ y t,
    Gives .composeD (h.setWidth 32) (l.setWidth 32) ⟨y, 0, false, false⟩ ∧
    y.extractLsb' 16 16 = h ∧ y.extractLsb' 0 16 = l ∧
    Gives .getD y (BitVec.ofNat 32 k.val) ⟨0, 0, t, false⟩ ∧
    (if k.val < 16 then Gives .getW (l.setWidth 32) (BitVec.ofNat 32 k.val) ⟨0, 0, t, false⟩
      else Gives .getW (h.setWidth 32) (BitVec.ofNat 32 (k.val - 16)) ⟨0, 0, t, false⟩))

/-! ### Operands and results -/

/-- R67: floored modulo of the signed B, which is its low bits; the examples. The rule's own inference on wider integers is
in `WideIntegersKeepTheirIndex`. -/
def Obligations.IndexIsFlooredModulo : Prop :=
  (∀ b : DWord, idx8 b = (b.toInt % 8).toNat ∧ idx8 b = (b.extractLsb' 0 3).toNat) ∧
  (∀ b : DWord, idx16 b = (b.toInt % 16).toNat ∧ idx16 b = (b.extractLsb' 0 4).toNat) ∧
  (∀ b : DWord, idx32 b = (b.toInt % 32).toNat ∧ idx32 b = (b.extractLsb' 0 5).toNat) ∧
  idx8 0xFFFFFFFF = 7 ∧ idx8 8 = 0 ∧ idx16 0xFFFFFFEF = 15 ∧ idx32 0x80000000 = 0

/-- The spec's own inference (30_encoding.md, "The result equals the source's `n mod N` for every integer n", marked
derived): a host that presents n mod 2^32 gets the index of the unbounded integer n. -/
def Obligations.WideIntegersKeepTheirIndex : Prop :=
  ∀ n : Int, hostPattern n = BitVec.ofNat 32 (n % 2 ^ 32).toNat ∧
    idx8 (hostPattern n) = (n % 8).toNat ∧ idx16 (hostPattern n) = (n % 16).toNat ∧
    idx32 (hostPattern n) = (n % 32).toNat

/-- R65 and R66, whole: the bits of A and of B that each operation reads. -/
def Obligations.OperandBitsRead : Prop :=
  (∀ v, ∀ i ∈ [Instr.getB, .setB v, .rolB, .rorB], ReadsOnly i 8 3) ∧
  (∀ i ∈ [Instr.revB, .invB], ReadsOnly i 8 0) ∧
  (∀ v, ∀ i ∈ [Instr.getW, .setW v, .rolW, .rorW], ReadsOnly i 16 4) ∧
  (∀ i ∈ [Instr.revW, .invW, .decomposeW, .swapW], ReadsOnly i 16 0) ∧
  ReadsOnly .composeW 8 8 ∧
  (∀ v, ∀ i ∈ [Instr.getD, .setD v, .rolD, .rorD], ReadsOnly i 32 5) ∧
  (∀ i ∈ [Instr.revD, .invD, .decomposeD, .swapD, .fdecode], ReadsOnly i 32 0) ∧
  ReadsOnly .composeD 16 16

/-- R25: narrow results are zero-extended on Y and Z. -/
def Obligations.ResultsAreZeroExtended : Prop :=
  (∀ v, ∀ i ∈ [Instr.setB v, .rolB, .rorB, .revB, .invB], ResultWidths i 8 0) ∧
  (∀ v, ∀ i ∈ [Instr.setW v, .rolW, .rorW, .revW, .invW, .composeW, .swapW], ResultWidths i 16 0) ∧
  (∀ i ∈ [Instr.getB, .getW, .getD], ResultWidths i 0 0) ∧
  ResultWidths .decomposeW 8 8 ∧ ResultWidths .decomposeD 16 16

/-- R24: a legal command has ILL = 0, T = 0 but for get-bit, Y = 0 for get-bit, and Z = 0 but for decompose. -/
def Obligations.UnnamedPortsHaveFixedValues : Prop :=
  ∀ (i : Instr) (a b : DWord), ∃ r, Gives i a b r ∧ r.ill = false ∧
    (i ∉ [Instr.getB, .getW, .getD] → r.t = false) ∧
    (i ∈ [Instr.getB, .getW, .getD] → r.y = 0) ∧
    (i ∉ [Instr.decomposeW, .decomposeD] → r.z = 0)

/-! ### Decoding -/

/-- The spec's own count (30_encoding.md section 4, "[derived: from rule R68 and rule R69]"): the 228 illegal command words, by its
list and its counts, each raising IllegalCommand. -/
def Obligations.IllegalCommandWords : Prop :=
  (∀ c : BitVec 8, listedIllegal c = true ↔ ∃ why, decode c = .error why) ∧
  (∀ c : BitVec 8, listedIllegal c = true → ∀ a b r,
    ∃ t, step { cmd := some c, a := a, b := b, response := r } = .fault (.illegalCommand t)) ∧
  ((List.range 256).filter (fun n => (BitVec.ofNat 8 n).getLsbD 7)).length = 128 ∧
  ((List.range 128).filter (fun n => n ≥ 64 && listedIllegal (BitVec.ofNat 8 n))).length = 61 ∧
  ((List.range 16).filter (fun n => listedIllegal (BitVec.ofNat 8 n))).length = 10 ∧
  ((List.range 16).filter (fun n => listedIllegal (BitVec.ofNat 8 (16 + n)))).length = 7 ∧
  ((List.range 16).filter (fun n => listedIllegal (BitVec.ofNat 8 (32 + n)))).length = 7 ∧
  ((List.range 16).filter (fun n => listedIllegal (BitVec.ofNat 8 (48 + n)))).length = 15 ∧
  ((List.range 256).filter (fun n => listedIllegal (BitVec.ofNat 8 n))).length = 228

/-- R68, whole: a command is legal exactly when it matches a row of the map, and then it is that row's operation, with V
from CMD[6]; at most one row matches; 28 words are legal. -/
def Obligations.DecodeFollowsOpcodeMap : Prop :=
  opcodeMap.length = 25 ∧
  (∀ c : BitVec 8,
    match opcodeMap.filter (fun row => c &&& row.2.1 == row.1) with
    | [] => ∃ why, decode c = .error why
    | [row] => decode c = .ok (row.2.2 (c.getLsbD 6))
    | _ => False) ∧
  ((List.range 256).filter (fun n => (decodeTableWord 8 n).isSome)).length = 28

/-- Encoding and decoding agree in both directions: every instruction decodes from its word, and every word that decodes is
the word of its instruction (no bit of a legal word is dropped). -/
def Obligations.DecodeEncodeAgree : Prop :=
  (∀ i : Instr, decode (encode i) = .ok i) ∧
  (∀ (c : BitVec 8) (i : Instr), decode c = .ok i → encode i = c)

/-- A few words written out from the map of R68. -/
def Obligations.DecodeSampleWords : Prop :=
  decode 0b00000000 = .ok .getB ∧ decode 0b01000001 = .ok (.setB true) ∧ decode 0b00010111 = .ok .decomposeW ∧
  decode 0b00101000 = .ok .swapD ∧ decode 0b00110000 = .ok .fdecode

/-! ### The step, the exception and reset -/

/-- With a legal command presented, the step is exactly its operation; the operation itself consumes the command. -/
def Obligations.StepRunsTheDecodedOperation : Prop :=
  ∀ (s : State) (c : BitVec 8) (i : Instr), s.cmd = some c → decode c = .ok i → step s = exec i s

/-- THE MODEL'S CHOICE (log entry 2): with no command presented the step changes nothing. -/
def Obligations.StepWithoutCommandIsIdle : Prop :=
  ∀ s : State, s.cmd = none → step s = .next s

/-- R231, R232: an illegal command, for whatever reason, gets the response Y = Z = 0, T = 0, ILL = 1, as a fault outcome;
nothing else changes; and the next command is answered as from reset. That the fault carries the state is the model's
choice (log entry 3). -/
def Obligations.IllegalCommandResponse : Prop :=
  ∀ (s : State) (c : BitVec 8) (why : IllegalReason), s.cmd = some c → decode c = .error why →
    ∃ t : State, step s = .fault (.illegalCommand t) ∧
      t = { cmd := none, a := s.a, b := s.b, response := some ⟨0, 0, false, true⟩ } ∧
      ∀ d : Command, (serve d t).response = (serve d State.reset).response

/-- R230: IllegalCommand, cause code 1, is the only exception; ILL reports it; only a command word of R70's list raises it; and
decoded operations raise nothing. -/
def Obligations.OnlyIllegalCommandsRaise : Prop :=
  (∀ f : Fault, f.causeCode = 1 ∧ ∃ t, f = .illegalCommand t) ∧
  (∀ r : Response, r.causeCode = if r.ill then 1 else 0) ∧
  (∀ (s : State) (f : Fault), step s = .fault f →
    (∃ c, s.cmd = some c ∧ listedIllegal c = true) ∧ ∃ r, f.after.response = some r ∧ r.causeCode = 1) ∧
  (∀ (i : Instr) (s : State), ∃ t, exec i s = .next t ∧ ∃ r, t.response = some r ∧ r.causeCode = 0)

/-- R23: the response is a function of the command's own CMD, A and B: two states that agree on them, whatever response
stands in each, answer alike. -/
def Obligations.ResponseDependsOnlyOnTheCommand : Prop :=
  ∀ (s s' : State) (c : BitVec 8), s.cmd = some c → s'.cmd = some c → s.a = s'.a → s.b = s'.b →
    (settle s (step s)).response = (settle s' (step s')).response ∧ (settle s (step s)).response.isSome = true

/-- R46: a repeated command gives the same response and leaves the same ports. -/
def Obligations.RepeatedCommandSameResponse : Prop :=
  ∀ (c : Command) (s : State), serve c (serve c s) = serve c s ∧ (serve c s).response.isSome = true

/-- R23, R49, R264: over any sequence of commands, legal or not, from any state, the block gives exactly one response to each,
in order, and each is the one it would give to that command alone after reset. -/
def Obligations.ResponsesComeOnePerCommandInOrder : Prop :=
  ∀ (cs : List Command) (s : State),
    session cs s = cs.map (fun c => (serve c State.reset).response) ∧
    (∀ r ∈ session cs s, r.isSome = true) ∧
    (∀ ds : List Command, session (cs ++ ds) s = session cs s ++ session ds (afterSession cs s)) ∧
    (SafeProgram cs ↔ ∀ r ∈ session cs s, ∀ q ∈ r, q.ill = false)

/-- Every step, an exception too, keeps the ports in the form the interface rules allow (R24, R25, R231). -/
def Obligations.StepKeepsPortsLegal : Prop :=
  ∀ s : State, s.PortsLegal → (settle s (step s)).PortsLegal ∧ ∀ t, step s = .next t → t.PortsLegal

/-- Both invariants hold after reset. -/
def Obligations.ResetMeetsTheInvariants : Prop := State.reset.PortsLegal ∧ State.reset.ResponseEarned

/-- Every step, an exception too, keeps this: the response on the ports is one the block gives to some command (R261). -/
def Obligations.StepKeepsResponseEarned : Prop :=
  ∀ s : State, s.ResponseEarned → (settle s (step s)).ResponseEarned ∧ ∀ t, step s = .next t → t.ResponseEarned

/-- Before the first command there is no response (70_reset_and_hazards.md, Reset). THE MODEL'S CHOICE of form (log entry 5):
a sampling of the pins then reads the free values of its number, which stand for the spec's unspecified value. -/
def Obligations.ResetHasNoResponse : Prop :=
  State.reset.response = none ∧ State.reset.currentResponse = none ∧
  (∀ n, State.reset.samplePins n =
    ⟨Config.unspecifiedY n, Config.unspecifiedZ n, Config.unspecifiedT n, Config.unspecifiedIll n⟩)

/-! ### The assembler -/

/-- R74 and the operators of R73: for every pseudo-instruction and operator, the operation it expands to and the result it
takes; that its word is the operation's; and what it assigns to its left side when run as a line of the host, from any
state: Y of the operation for the forms of set, inv, rol and ror, T as 0 or 1 for the bit test, and the half taken for
the four half forms. The literals are those the spec reads: A unsigned, B signed. -/
def Obligations.PseudoInstructionExpansions : Prop :=
  (Pseudo.bset .b).expand = (.setB true, .fromY) ∧
  (Pseudo.bset .w).expand = (.setW true, .fromY) ∧
  (Pseudo.bset .d).expand = (.setD true, .fromY) ∧
  (Pseudo.bclr .b).expand = (.setB false, .fromY) ∧
  (Pseudo.bclr .w).expand = (.setW false, .fromY) ∧
  (Pseudo.bclr .d).expand = (.setD false, .fromY) ∧
  (Pseudo.not .b).expand = (.invB, .fromY) ∧
  (Pseudo.not .w).expand = (.invW, .fromY) ∧
  (Pseudo.not .d).expand = (.invD, .fromY) ∧
  (Pseudo.rotl .b).expand = (.rolB, .fromY) ∧
  (Pseudo.rotl .w).expand = (.rolW, .fromY) ∧
  (Pseudo.rotl .d).expand = (.rolD, .fromY) ∧
  (Pseudo.rotr .b).expand = (.rorB, .fromY) ∧
  (Pseudo.rotr .w).expand = (.rorW, .fromY) ∧
  (Pseudo.rotr .d).expand = (.rorD, .fromY) ∧
  (Pseudo.rotlSign .b).expand = (.rolB, .fromY) ∧
  (Pseudo.rotlSign .w).expand = (.rolW, .fromY) ∧
  (Pseudo.rotlSign .d).expand = (.rolD, .fromY) ∧
  (Pseudo.rotrSign .b).expand = (.rorB, .fromY) ∧
  (Pseudo.rotrSign .w).expand = (.rorW, .fromY) ∧
  (Pseudo.rotrSign .d).expand = (.rorD, .fromY) ∧
  (Pseudo.bitTest .b).expand = (.getB, .fromT) ∧
  (Pseudo.bitTest .w).expand = (.getW, .fromT) ∧
  (Pseudo.bitTest .d).expand = (.getD, .fromT) ∧
  Pseudo.lowbyte.expand = (.decomposeW, .fromZ) ∧
  Pseudo.highbyte.expand = (.decomposeW, .fromY) ∧
  Pseudo.lowword.expand = (.decomposeD, .fromZ) ∧
  Pseudo.highword.expand = (.decomposeD, .fromY) ∧
  (∀ p : Pseudo, (Operation.pseudo p).word = encode p.expand.1 ∧ decode (Operation.pseudo p).word = .ok p.expand.1) ∧
  (∀ (t : ValueTier) (a b : DWord) (s : State),
    ∀ p ∈ [Pseudo.bset t, .bclr t, .not t, .rotl t, .rotr t, .rotlSign t, .rotrSign t], ∃ r,
      Gives p.expand.1 a b r ∧
      (runLine ⟨["x"], .pseudo p, .literal a.toNat, .literal b.toInt⟩ [] s).1 = [("x", r.y)]) ∧
  (∀ (t : ValueTier) (a b : DWord) (s : State), ∃ r,
    Gives (Pseudo.bitTest t).expand.1 a b r ∧
    (runLine ⟨["x"], .pseudo (.bitTest t), .literal a.toNat, .literal b.toInt⟩ [] s).1 =
      [("x", if r.t then 1 else 0)]) ∧
  (∀ (a : DWord) (s : State),
    (runLine ⟨["x"], .pseudo .lowbyte, .literal a.toNat, .omitted⟩ [] s).1 =
      [("x", (a.extractLsb' 0 8).setWidth 32)] ∧
    (runLine ⟨["x"], .pseudo .highbyte, .literal a.toNat, .omitted⟩ [] s).1 =
      [("x", (a.extractLsb' 8 8).setWidth 32)] ∧
    (runLine ⟨["x"], .pseudo .lowword, .literal a.toNat, .omitted⟩ [] s).1 =
      [("x", (a.extractLsb' 0 16).setWidth 32)] ∧
    (runLine ⟨["x"], .pseudo .highword, .literal a.toNat, .omitted⟩ [] s).1 =
      [("x", (a.extractLsb' 16 16).setWidth 32)])
end

