-- ==== Sys2Proof/Laws/Bits.lean ====
section
/-! SUPPORT. What each shared bit operation does, bit by bit or in closed form; later proofs cite these and do not
unfold the operations. -/

namespace Sys2Proof.Machine

/-! ### Operands -/

/-- A reduced index or count names a bit of the width. -/
theorem idx_lt (n : Nat) (hn : 0 < n) (b : DWord) : idx n b < n := by
  have h0 := Int.emod_nonneg b.toInt (show (n : Int) ≠ 0 by omega)
  have h1 := Int.emod_lt_of_pos b.toInt (show (0 : Int) < n by omega)
  simp only [idx]
  omega

/-! ### Get -/

theorem getBit8_eq (x : Byte) (j : Nat) : getBit8 x j = x.getLsbD j := rfl

/-- get.w's layering reads bit j of the word (R131). -/
theorem getBit16_eq (x : Word) (j : Nat) : getBit16 x j = x.getLsbD j := by
  simp only [getBit16, getBit8, highByte, lowByte, BitVec.getLsbD_extractLsb']
  split
  · rename_i h
    by_cases hj : j < 16
    · simp [show j - 8 < 8 by omega, show 8 + (j - 8) = j by omega]
    · simp [show ¬ j - 8 < 8 by omega, BitVec.getLsbD_of_ge x j (by omega)]
  · rename_i h
    simp [show j < 8 by omega]

/-- get.d's layering reads bit j of the double-word (R171). -/
theorem getBit32_eq (x : DWord) (j : Nat) : getBit32 x j = x.getLsbD j := by
  simp only [getBit32, getBit16_eq, highWord, lowWord, BitVec.getLsbD_extractLsb']
  split
  · rename_i h
    by_cases hj : j < 32
    · simp [show j - 16 < 16 by omega, show 16 + (j - 16) = j by omega]
    · simp [show ¬ j - 16 < 16 by omega, BitVec.getLsbD_of_ge x j (by omega)]
  · rename_i h
    simp [show j < 16 by omega]

/-! ### Compose and decompose -/

/-- Bit i of a composed word is bit i of the low byte, or bit i-8 of the high byte (R42). -/
theorem getLsbD_composeWord (h l : Byte) (i : Nat) :
    (composeWord h l).getLsbD i = if i < 8 then l.getLsbD i else h.getLsbD (i - 8) := by
  simp only [composeWord, BitVec.getLsbD_append]

/-- Bit i of a composed double-word is bit i of the low word, or bit i-16 of the high word (R42). -/
theorem getLsbD_composeDoubleWord (h l : Word) (i : Nat) :
    (composeDoubleWord h l).getLsbD i = if i < 16 then l.getLsbD i else h.getLsbD (i - 16) := by
  simp only [composeDoubleWord, BitVec.getLsbD_append]

theorem lowByte_composeWord (h l : Byte) : lowByte (composeWord h l) = l := by
  apply BitVec.eq_of_getLsbD_eq
  intro i hi
  simp [lowByte, getLsbD_composeWord, hi]

theorem highByte_composeWord (h l : Byte) : highByte (composeWord h l) = h := by
  apply BitVec.eq_of_getLsbD_eq
  intro i hi
  simp [highByte, getLsbD_composeWord, hi]

theorem lowWord_composeDoubleWord (h l : Word) : lowWord (composeDoubleWord h l) = l := by
  apply BitVec.eq_of_getLsbD_eq
  intro i hi
  simp [lowWord, getLsbD_composeDoubleWord, hi]

theorem highWord_composeDoubleWord (h l : Word) : highWord (composeDoubleWord h l) = h := by
  apply BitVec.eq_of_getLsbD_eq
  intro i hi
  simp [highWord, getLsbD_composeDoubleWord, hi]

/-! ### Set -/

/-- `x with [j] := b` (R100). -/
theorem getLsbD_setBit8 (x : Byte) (j : Nat) (b : Bool) (hj : j < 8) (i : Nat) :
    (setBit8 x j b).getLsbD i = if i = j then b else x.getLsbD i := by
  by_cases hi : i < 8
  · revert x b
    interval_cases j <;> interval_cases i <;> decide +kernel
  · rw [BitVec.getLsbD_of_ge _ _ (by omega), if_neg (by omega), BitVec.getLsbD_of_ge _ _ (by omega)]

/-- set.w's layering is `x with [j] := b` (R132). -/
theorem getLsbD_setBit16 (x : Word) (j : Nat) (b : Bool) (hj : j < 16) (i : Nat) :
    (setBit16 x j b).getLsbD i = if i = j then b else x.getLsbD i := by
  unfold setBit16
  split
  · rename_i h
    rw [getLsbD_composeWord, getLsbD_setBit8 _ _ _ (by omega)]
    by_cases hi : i < 8
    · rw [if_pos hi, if_neg (by omega)]
      simp [lowByte, hi]
    · rw [if_neg hi]
      by_cases hij : i = j
      · rw [if_pos (by omega), if_pos hij]
      · rw [if_neg (by omega), if_neg hij]
        simp only [highByte, BitVec.getLsbD_extractLsb']
        by_cases h16 : i < 16
        · simp [show i - 8 < 8 by omega, show 8 + (i - 8) = i by omega]
        · simp [show ¬ i - 8 < 8 by omega, BitVec.getLsbD_of_ge x i (by omega)]
  · rename_i h
    rw [getLsbD_composeWord, getLsbD_setBit8 _ _ _ (by omega)]
    by_cases hi : i < 8
    · rw [if_pos hi]
      simp [lowByte, hi]
    · rw [if_neg hi, if_neg (by omega)]
      simp only [highByte, BitVec.getLsbD_extractLsb']
      by_cases h16 : i < 16
      · simp [show i - 8 < 8 by omega, show 8 + (i - 8) = i by omega]
      · simp [show ¬ i - 8 < 8 by omega, BitVec.getLsbD_of_ge x i (by omega)]

/-- set.d's layering is `x with [j] := b` (R172). -/
theorem getLsbD_setBit32 (x : DWord) (j : Nat) (b : Bool) (hj : j < 32) (i : Nat) :
    (setBit32 x j b).getLsbD i = if i = j then b else x.getLsbD i := by
  unfold setBit32
  split
  · rename_i h
    rw [getLsbD_composeDoubleWord, getLsbD_setBit16 _ _ _ (by omega)]
    by_cases hi : i < 16
    · rw [if_pos hi, if_neg (by omega)]
      simp [lowWord, hi]
    · rw [if_neg hi]
      by_cases hij : i = j
      · rw [if_pos (by omega), if_pos hij]
      · rw [if_neg (by omega), if_neg hij]
        simp only [highWord, BitVec.getLsbD_extractLsb']
        by_cases h32 : i < 32
        · simp [show i - 16 < 16 by omega, show 16 + (i - 16) = i by omega]
        · simp [show ¬ i - 16 < 16 by omega, BitVec.getLsbD_of_ge x i (by omega)]
  · rename_i h
    rw [getLsbD_composeDoubleWord, getLsbD_setBit16 _ _ _ (by omega)]
    by_cases hi : i < 16
    · rw [if_pos hi]
      simp [lowWord, hi]
    · rw [if_neg hi, if_neg (by omega)]
      simp only [highWord, BitVec.getLsbD_extractLsb']
      by_cases h32 : i < 32
      · simp [show i - 16 < 16 by omega, show 16 + (i - 16) = i by omega]
      · simp [show ¬ i - 16 < 16 by omega, BitVec.getLsbD_of_ge x i (by omega)]

/-! ### Loops over the bit positions -/

/-- A loop that sets the bits 0 to m-1 in turn to `f i` leaves exactly those bits so, for any set operation that sets one
bit and keeps the others. -/
theorem getLsbD_setLoop {w : Nat} (set : BitVec w → Nat → Bool → BitVec w)
    (hset : ∀ x j b, j < w → ∀ i, (set x j b).getLsbD i = if i = j then b else x.getLsbD i)
    (f : Nat → Bool) (x : BitVec w) (m : Nat) (hm : m ≤ w) (i : Nat) :
    ((List.range m).foldl (fun r k => set r k (f k)) x).getLsbD i = if i < m then f i else x.getLsbD i := by
  induction m generalizing i with
  | zero => simp
  | succ m ih =>
    rw [List.range_succ, List.foldl_append]
    simp only [List.foldl_cons, List.foldl_nil]
    rw [hset _ _ _ (by omega), ih (by omega)]
    by_cases h : i = m
    · rw [if_pos h, if_pos (by omega), h]
    · by_cases h' : i < m
      · rw [if_neg h, if_pos h', if_pos (by omega)]
      · rw [if_neg h, if_neg h', if_neg (by omega)]

/-- rev.b: bit i of the result is bit 7-i (R105). -/
theorem getLsbD_rev8 (v : Byte) (i : Nat) (hi : i < 8) : (rev8 v).getLsbD i = v.getLsbD (7 - i) := by
  unfold rev8
  rw [getLsbD_setLoop setBit8 (fun x j b hj i => getLsbD_setBit8 x j b hj i) _ _ 8 (by omega), if_pos hi]
  rfl

/-- rev.w: the full 16-bit mirror (R135). -/
theorem getLsbD_rev16 (v : Word) (i : Nat) (hi : i < 16) : (rev16 v).getLsbD i = v.getLsbD (15 - i) := by
  unfold rev16
  rw [getLsbD_setLoop setBit16 (fun x j b hj i => getLsbD_setBit16 x j b hj i) _ _ 16 (by omega), if_pos hi,
    getBit16_eq]

/-- rev.d: the full 32-bit mirror (R175). -/
theorem getLsbD_rev32 (v : DWord) (i : Nat) (hi : i < 32) : (rev32 v).getLsbD i = v.getLsbD (31 - i) := by
  unfold rev32
  rw [getLsbD_setLoop setBit32 (fun x j b hj i => getLsbD_setBit32 x j b hj i) _ _ 32 (by omega), if_pos hi,
    getBit32_eq]

/-- inv.b is the bitwise complement (R106). -/
theorem inv8_eq (v : Byte) : inv8 v = ~~~v := by
  apply BitVec.eq_of_getLsbD_eq
  intro i hi
  unfold inv8
  rw [getLsbD_setLoop setBit8 (fun x j b hj i => getLsbD_setBit8 x j b hj i) _ _ 8 (by omega), if_pos hi]
  simp [getBit8, hi]

/-- inv.w is the bitwise complement (R136). -/
theorem inv16_eq (v : Word) : inv16 v = ~~~v := by
  apply BitVec.eq_of_getLsbD_eq
  intro i hi
  simp only [inv16, inv8_eq, getLsbD_composeWord, BitVec.getLsbD_not, highByte, lowByte, BitVec.getLsbD_extractLsb']
  by_cases h : i < 8
  · simp [h, hi]
  · simp [h, hi, show i - 8 < 8 by omega, show 8 + (i - 8) = i by omega]

/-- inv.d is the bitwise complement (R176). -/
theorem inv32_eq (v : DWord) : inv32 v = ~~~v := by
  apply BitVec.eq_of_getLsbD_eq
  intro i hi
  simp only [inv32, inv16_eq, getLsbD_composeDoubleWord, BitVec.getLsbD_not, highWord, lowWord,
    BitVec.getLsbD_extractLsb']
  by_cases h : i < 16
  · simp [h, hi]
  · simp [h, hi, show i - 16 < 16 by omega, show 16 + (i - 16) = i by omega]

/-! ### Rotates -/

/-- Widen, shift left by k, fold: bit i of the result comes from k places below, around the end (R103). -/
theorem getLsbD_foldLeft {w : Nat} (v : BitVec w) (k : Nat) (hk : k < w) (i : Nat) (hi : i < w) :
    ((v.setWidth (w + w) <<< k).extractLsb' 0 w ||| (v.setWidth (w + w) <<< k).extractLsb' w w).getLsbD i =
      if i < k then v.getLsbD (w + i - k) else v.getLsbD (i - k) := by
  simp only [BitVec.getLsbD_or, BitVec.getLsbD_extractLsb', BitVec.getLsbD_shiftLeft, BitVec.getLsbD_setWidth]
  by_cases h : i < k
  · simp [h, hi, show w + i - k < w + w by omega, show ¬ w + i < k by omega]
  · simp [h, hi, show i < w + w by omega, show i - k < w + w by omega, show ¬ w + i < k by omega,
      BitVec.getLsbD_of_ge v (w + i - k) (by omega)]

/-- Widen, shift right by k, fold: bit i of the result comes from k places above, around the end (R104). -/
theorem getLsbD_foldRight {w : Nat} (v : BitVec w) (k : Nat) (hk : k < w) (i : Nat) (hi : i < w) :
    (((v.setWidth (w + w) <<< w) >>> k).extractLsb' w w |||
      ((v.setWidth (w + w) <<< w) >>> k).extractLsb' 0 w).getLsbD i =
      if i + k < w then v.getLsbD (i + k) else v.getLsbD (i + k - w) := by
  simp only [BitVec.getLsbD_or, BitVec.getLsbD_extractLsb', BitVec.getLsbD_ushiftRight, BitVec.getLsbD_shiftLeft,
    BitVec.getLsbD_setWidth]
  by_cases h : i + k < w
  · simp [h, hi, show k + (w + i) < w + w by omega, show k + i < w by omega,
      show k + (w + i) - w = i + k by omega, show ¬ k + (w + i) < w by omega, show i + k < w + w by omega]
  · simp [h, hi, show ¬ k + (w + i) < w + w by omega, show k + i < w + w by omega, show ¬ k + i < w by omega,
      show k + i - w = i + k - w by omega, show i + k - w < w + w by omega]

/-- rol.b by k (R103). -/
theorem getLsbD_rol8 (v : Byte) (k : Nat) (hk : k < 8) (i : Nat) (hi : i < 8) :
    (rol8 v k).getLsbD i = if i < k then v.getLsbD (8 + i - k) else v.getLsbD (i - k) :=
  getLsbD_foldLeft v k hk i hi

/-- ror.b by k (R104). -/
theorem getLsbD_ror8 (v : Byte) (k : Nat) (hk : k < 8) (i : Nat) (hi : i < 8) :
    (ror8 v k).getLsbD i = if i + k < 8 then v.getLsbD (i + k) else v.getLsbD (i + k - 8) :=
  getLsbD_foldRight v k hk i hi

/-- rol.w by k (R133). -/
theorem getLsbD_rol16 (v : Word) (k : Nat) (hk : k < 16) (i : Nat) (hi : i < 16) :
    (rol16 v k).getLsbD i = if i < k then v.getLsbD (16 + i - k) else v.getLsbD (i - k) :=
  getLsbD_foldLeft v k hk i hi

/-- ror.w by k (R134). -/
theorem getLsbD_ror16 (v : Word) (k : Nat) (hk : k < 16) (i : Nat) (hi : i < 16) :
    (ror16 v k).getLsbD i = if i + k < 16 then v.getLsbD (i + k) else v.getLsbD (i + k - 16) :=
  getLsbD_foldRight v k hk i hi

/-- rol.d by k (R173). -/
theorem getLsbD_rol32 (v : DWord) (k : Nat) (hk : k < 32) (i : Nat) (hi : i < 32) :
    (rol32 v k).getLsbD i = if i < k then v.getLsbD (32 + i - k) else v.getLsbD (i - k) :=
  getLsbD_foldLeft v k hk i hi

/-- ror.d by k (R174). -/
theorem getLsbD_ror32 (v : DWord) (k : Nat) (hk : k < 32) (i : Nat) (hi : i < 32) :
    (ror32 v k).getLsbD i = if i + k < 32 then v.getLsbD (i + k) else v.getLsbD (i + k - 32) :=
  getLsbD_foldRight v k hk i hi

end Sys2Proof.Machine
end

