-- ==== Sys2Proof/Laws/Config.lean ====
section
/-! SUPPORT. The patterns of `NaNPattern` are exactly those R6 admits as `P_NAN`. -/

namespace Sys2Proof.Config

/-- The raw exponent field of every admitted pattern is 255. -/
theorem NaNPattern.bits_exponent (p : NaNPattern) : p.bits.extractLsb' 23 8 = 0xFF#8 := by
  ext i hi
  simp only [NaNPattern.bits, BitVec.getElem_extractLsb', BitVec.getLsbD_append]
  rw [if_neg (by omega), if_pos (by omega)]
  simp [show 23 + i - 23 = i by omega, BitVec.getLsbD_eq_getElem hi]

/-- The fraction field of an admitted pattern is the stored number plus one. -/
theorem NaNPattern.bits_fraction (p : NaNPattern) :
    p.bits.extractLsb' 0 23 = BitVec.ofNat 23 (p.fractionPred.val + 1) := by
  ext i hi
  simp only [NaNPattern.bits, BitVec.getElem_extractLsb', BitVec.getLsbD_append]
  rw [if_pos (by omega)]
  simp [BitVec.getLsbD_eq_getElem hi]

/-- The fraction field of every admitted pattern is not zero. -/
theorem NaNPattern.bits_fraction_ne_zero (p : NaNPattern) : p.bits.extractLsb' 0 23 ≠ 0#23 := by
  rw [p.bits_fraction]
  intro h
  have hn := congrArg BitVec.toNat h
  have hb := p.fractionPred.isLt
  simp only [BitVec.toNat_ofNat] at hn
  omega

/-- Every pattern with raw exponent field 255 and a fraction field that is not 0 is an admitted pattern. -/
theorem NaNPattern.exists_bits_eq (s : BitVec 1) (f : BitVec 23) (hf : f ≠ 0) :
    ∃ p : NaNPattern, p.bits = s ++ 0xFF#8 ++ f := by
  have hpos : f.toNat ≠ 0 := fun h => hf (BitVec.eq_of_toNat_eq (by simpa using h))
  have hlt := f.isLt
  refine ⟨{ sign := s, fractionPred := ⟨f.toNat - 1, by omega⟩ }, ?_⟩
  have hback : BitVec.ofNat 23 (f.toNat - 1 + 1) = f := by
    apply BitVec.eq_of_toNat_eq
    rw [BitVec.toNat_ofNat]
    omega
  simp only [NaNPattern.bits, hback]

end Sys2Proof.Config
end

