-- ==== Sys2Proof/Laws/Float.lean ====
section
/-! SUPPORT. The loops of the float decoder in closed form, and what the rounding of a quotient does. -/

namespace Sys2Proof.Machine

/-- A loop that adds 2^i for each set bit `s + i` adds the number those bits make. -/
theorem sumBits_eq (x : DWord) (s n acc : Nat) :
    (List.range n).foldl (fun e i => if x.getLsbD (s + i) then e + 2 ^ i else e) acc =
      acc + x.toNat / 2 ^ s % 2 ^ n := by
  induction n with
  | zero => simp [Nat.mod_one]
  | succ n ih =>
    rw [List.range_succ, List.foldl_append, ih]
    simp only [List.foldl_cons, List.foldl_nil]
    have hbit : x.getLsbD (s + n) = decide (x.toNat / 2 ^ s / 2 ^ n % 2 = 1) := by
      rw [BitVec.getLsbD, Nat.testBit_eq_decide_div_mod_eq, Nat.div_div_eq_div_mul, ← pow_add]
    have hmod : x.toNat / 2 ^ s % 2 ^ (n + 1) =
        x.toNat / 2 ^ s % 2 ^ n + 2 ^ n * (x.toNat / 2 ^ s / 2 ^ n % 2) := by
      rw [pow_succ, Nat.mod_mul]
    rw [hmod, hbit]
    rcases Nat.mod_two_eq_zero_or_one (x.toNat / 2 ^ s / 2 ^ n) with h | h <;> simp [h, Nat.add_assoc]

/-- The loop of step 2 is the exponent field as an unsigned number (R210, R211). -/
theorem rawExponent_eq (bits : DWord) : rawExponent bits = (bits.extractLsb' 23 8).toNat := by
  simp only [rawExponent, getBit32_eq, sumBits_eq, BitVec.extractLsb'_toNat, Nat.shiftRight_eq_div_pow, Nat.zero_add]

/-- The loop of step 3 is the implicit 1 and the fraction field, in units of 2^-23 (R210, R211). -/
theorem mantissaSum_eq (bits : DWord) : mantissaSum bits = 2 ^ 23 + (fractionField bits).toNat := by
  have h := sumBits_eq bits 0 23 (2 ^ 23)
  simp only [Nat.zero_add, pow_zero, Nat.div_one] at h
  simp only [mantissaSum, getBit32_eq, fractionField, BitVec.extractLsb'_toNat, Nat.shiftRight_zero]
  exact h

/-- Step 4's condition in terms of the fields (R212). -/
theorem isNaNInput_iff (bits : DWord) :
    isNaNInput bits = true ↔ (bits.extractLsb' 23 8).toNat = 255 ∧ fractionField bits ≠ 0 := by
  simp [isNaNInput, rawExponent_eq]

/-- The rounded quotient is within half a unit of `m / 2^d`, and where it is exactly half a unit away it is even (R12). -/
theorem shiftRightNearestEven_spec (m d : Nat) :
    2 * m ≤ (2 * shiftRightNearestEven m d + 1) * 2 ^ d ∧ 2 * (shiftRightNearestEven m d * 2 ^ d) ≤ 2 * m + 2 ^ d ∧
    ((2 * m = (2 * shiftRightNearestEven m d + 1) * 2 ^ d ∨
      2 * (shiftRightNearestEven m d * 2 ^ d) = 2 * m + 2 ^ d) → shiftRightNearestEven m d % 2 = 0) := by
  have hpos : 0 < 2 ^ d := Nat.two_pow_pos d
  have hdiv : 2 ^ d * (m / 2 ^ d) + m % 2 ^ d = m := Nat.div_add_mod m (2 ^ d)
  have hlt : m % 2 ^ d < 2 ^ d := Nat.mod_lt m hpos
  simp only [shiftRightNearestEven, Nat.shiftRight_eq_div_pow]
  generalize m / 2 ^ d = q at *
  generalize m % 2 ^ d = r at *
  generalize 2 ^ d = u at *
  subst hdiv
  have hcomm : u * q = q * u := Nat.mul_comm u q
  split
  · rename_i h
    simp only [Bool.or_eq_true, decide_eq_true_eq, Bool.and_eq_true, beq_iff_eq] at h
    have hr : u ≤ 2 * r := by omega
    refine ⟨by nlinarith, by nlinarith, fun ht => ?_⟩
    rcases ht with ht | ht
    · nlinarith
    · have : 2 * r = u := by nlinarith
      omega
  · rename_i h
    simp only [Bool.or_eq_true, decide_eq_true_eq, Bool.and_eq_true, beq_iff_eq, not_or, not_and] at h
    have hr : 2 * r ≤ u := by omega
    refine ⟨by nlinarith, by nlinarith, fun ht => ?_⟩
    rcases ht with ht | ht
    · have hru : 2 * r = u := by nlinarith
      have := h.2 hru
      omega
    · nlinarith

end Sys2Proof.Machine
end

