-- ==== Sys2Proof/Laws/State.lean ====
section
/-! SUPPORT. One lemma per field for each update of the ports, so that no later proof unfolds a record update. -/

namespace Sys2Proof.Machine

@[simp] theorem State.answer_cmd (s : State) (r : Response) : (s.answer r).cmd = none := rfl
@[simp] theorem State.answer_a (s : State) (r : Response) : (s.answer r).a = s.a := rfl
@[simp] theorem State.answer_b (s : State) (r : Response) : (s.answer r).b = s.b := rfl
@[simp] theorem State.answer_response (s : State) (r : Response) : (s.answer r).response = some r := rfl

@[simp] theorem State.present_cmd (c : Command) (s : State) : (s.present c).cmd = some c.cmd := rfl
@[simp] theorem State.present_a (c : Command) (s : State) : (s.present c).a = c.a := rfl
@[simp] theorem State.present_b (c : Command) (s : State) : (s.present c).b = c.b := rfl
@[simp] theorem State.present_response (c : Command) (s : State) : (s.present c).response = s.response := rfl

@[simp] theorem presentWord_cmd (w : BitVec 8) (s : State) : (presentWord w s).cmd = some w := rfl
@[simp] theorem presentWord_a (w : BitVec 8) (s : State) : (presentWord w s).a = s.a := rfl
@[simp] theorem presentWord_b (w : BitVec 8) (s : State) : (presentWord w s).b = s.b := rfl
@[simp] theorem presentWord_response (w : BitVec 8) (s : State) : (presentWord w s).response = s.response := rfl

@[simp] theorem State.reset_cmd : State.reset.cmd = none := rfl
@[simp] theorem State.reset_a : State.reset.a = 0 := rfl
@[simp] theorem State.reset_b : State.reset.b = 0 := rfl
@[simp] theorem State.reset_response : State.reset.response = none := rfl

@[simp] theorem replyY_y (y : DWord) : (replyY y).y = y := rfl
@[simp] theorem replyY_z (y : DWord) : (replyY y).z = 0 := rfl
@[simp] theorem replyY_t (y : DWord) : (replyY y).t = false := rfl
@[simp] theorem replyY_ill (y : DWord) : (replyY y).ill = false := rfl
@[simp] theorem replyYZ_y (y z : DWord) : (replyYZ y z).y = y := rfl
@[simp] theorem replyYZ_z (y z : DWord) : (replyYZ y z).z = z := rfl
@[simp] theorem replyYZ_t (y z : DWord) : (replyYZ y z).t = false := rfl
@[simp] theorem replyYZ_ill (y z : DWord) : (replyYZ y z).ill = false := rfl
@[simp] theorem replyT_y (t : Bool) : (replyT t).y = 0 := rfl
@[simp] theorem replyT_z (t : Bool) : (replyT t).z = 0 := rfl
@[simp] theorem replyT_t (t : Bool) : (replyT t).t = t := rfl
@[simp] theorem replyT_ill (t : Bool) : (replyT t).ill = false := rfl

@[simp] theorem settle_next (s t : State) : settle s (.next t) = t := rfl
@[simp] theorem settle_fault (s : State) (f : Fault) : settle s (.fault f) = f.after := rfl
@[simp] theorem Fault.after_illegalCommand (s : State) : (Fault.illegalCommand s).after = s := rfl

end Sys2Proof.Machine
end

