-- ==== Sys2Proof/Laws/Ops.lean ====
section
/-! SUPPORT. What each shared operation of Ops.lean, each operation of the block and a step can do, said once. -/

namespace Sys2Proof.Machine

/-- If a legal operation's reply is a next state, it is the state with the command taken and that response. -/
theorem reply_next (s t : State) (r : Response) (h : reply s r = .next t) : t = s.answer r := by
  simpa [reply] using h.symm

/-- A legal operation's reply is never a fault. -/
theorem reply_ne_fault (s : State) (r : Response) (f : Fault) : reply s r ≠ .fault f := by
  simp [reply]

/-- Taking IllegalCommand is a fault with the illegal-command response, whatever the reason (R231, R236). -/
theorem takeIllegalCommand_eq (why : IllegalReason) (s : State) :
    takeIllegalCommand why s = .fault (.illegalCommand (s.answer replyIllegal)) := rfl

theorem exec_getB (s : State) :
    exec .getB s = .next (s.answer (replyT (getBit8 (byteOperand s.a) (idx8 s.b)))) := rfl
theorem exec_setB (v : Bool) (s : State) :
    exec (.setB v) s = .next (s.answer (replyY ((setBit8 (byteOperand s.a) (idx8 s.b) v).setWidth 32))) := rfl
theorem exec_rolB (s : State) :
    exec .rolB s = .next (s.answer (replyY ((rol8 (byteOperand s.a) (idx8 s.b)).setWidth 32))) := rfl
theorem exec_rorB (s : State) :
    exec .rorB s = .next (s.answer (replyY ((ror8 (byteOperand s.a) (idx8 s.b)).setWidth 32))) := rfl
theorem exec_revB (s : State) :
    exec .revB s = .next (s.answer (replyY ((rev8 (byteOperand s.a)).setWidth 32))) := rfl
theorem exec_invB (s : State) :
    exec .invB s = .next (s.answer (replyY ((inv8 (byteOperand s.a)).setWidth 32))) := rfl
theorem exec_getW (s : State) :
    exec .getW s = .next (s.answer (replyT (getBit16 (wordOperand s.a) (idx16 s.b)))) := rfl
theorem exec_setW (v : Bool) (s : State) :
    exec (.setW v) s = .next (s.answer (replyY ((setBit16 (wordOperand s.a) (idx16 s.b) v).setWidth 32))) := rfl
theorem exec_rolW (s : State) :
    exec .rolW s = .next (s.answer (replyY ((rol16 (wordOperand s.a) (idx16 s.b)).setWidth 32))) := rfl
theorem exec_rorW (s : State) :
    exec .rorW s = .next (s.answer (replyY ((ror16 (wordOperand s.a) (idx16 s.b)).setWidth 32))) := rfl
theorem exec_revW (s : State) :
    exec .revW s = .next (s.answer (replyY ((rev16 (wordOperand s.a)).setWidth 32))) := rfl
theorem exec_invW (s : State) :
    exec .invW s = .next (s.answer (replyY ((inv16 (wordOperand s.a)).setWidth 32))) := rfl
theorem exec_composeW (s : State) :
    exec .composeW s = .next (s.answer (replyY ((composeWord (byteOperand s.a) (byteOperand s.b)).setWidth 32))) := rfl
theorem exec_decomposeW (s : State) :
    exec .decomposeW s = .next (s.answer (replyYZ ((highByte (wordOperand s.a)).setWidth 32) ((lowByte (wordOperand s.a)).setWidth 32))) := rfl
theorem exec_swapW (s : State) :
    exec .swapW s = .next (s.answer (replyY ((swap16 (wordOperand s.a)).setWidth 32))) := rfl
theorem exec_getD (s : State) :
    exec .getD s = .next (s.answer (replyT (getBit32 (dwordOperand s.a) (idx32 s.b)))) := rfl
theorem exec_setD (v : Bool) (s : State) :
    exec (.setD v) s = .next (s.answer (replyY (setBit32 (dwordOperand s.a) (idx32 s.b) v))) := rfl
theorem exec_rolD (s : State) :
    exec .rolD s = .next (s.answer (replyY (rol32 (dwordOperand s.a) (idx32 s.b)))) := rfl
theorem exec_rorD (s : State) :
    exec .rorD s = .next (s.answer (replyY (ror32 (dwordOperand s.a) (idx32 s.b)))) := rfl
theorem exec_revD (s : State) :
    exec .revD s = .next (s.answer (replyY (rev32 (dwordOperand s.a)))) := rfl
theorem exec_invD (s : State) :
    exec .invD s = .next (s.answer (replyY (inv32 (dwordOperand s.a)))) := rfl
theorem exec_composeD (s : State) :
    exec .composeD s = .next (s.answer (replyY (composeDoubleWord (wordOperand s.a) (wordOperand s.b)))) := rfl
theorem exec_decomposeD (s : State) :
    exec .decomposeD s = .next (s.answer (replyYZ ((highWord (dwordOperand s.a)).setWidth 32) ((lowWord (dwordOperand s.a)).setWidth 32))) := rfl
theorem exec_swapD (s : State) :
    exec .swapD s = .next (s.answer (replyY (swap32 (dwordOperand s.a)))) := rfl
theorem exec_fdecode (s : State) :
    exec .fdecode s = .next (s.answer (replyY (decodeFloatBits (dwordOperand s.a)))) := rfl

/-- Everything a step can do: nothing, with no command presented; the decoded operation; or IllegalCommand. -/
theorem step_cases (s : State) :
    (s.cmd = none ∧ step s = idle s) ∨
    (∃ c i, s.cmd = some c ∧ decode c = .ok i ∧ step s = exec i s) ∨
    (∃ c why, s.cmd = some c ∧ decode c = .error why ∧ step s = takeIllegalCommand why s) := by
  cases hc : s.cmd with
  | none => exact .inl ⟨rfl, by simp [step, fetch, hc]⟩
  | some c =>
    cases hd : decode c with
    | ok i => exact .inr (.inl ⟨c, i, rfl, hd, by simp [step, fetch, hc, hd]⟩)
    | error why => exact .inr (.inr ⟨c, why, rfl, hd, by simp [step, fetch, hc, hd]⟩)

/-- The three checks of `Cmd8.illegal?` are the conjunction `Cmd8.wellFormed`. -/
theorem illegal?_eq_none_iff (c : Cmd8) : c.illegal? = none ↔ c.wellFormed = true := by
  unfold Cmd8.illegal? Cmd8.wellFormed
  cases c.rsvClear <;> cases c.vAllowed <;> cases c.fnAssigned <;> simp

/-- The fields of a word, put together again, are the word (R60). -/
theorem joinCmd_splitCmd (c : BitVec 8) : joinCmd (splitCmd c) = c := by
  revert c
  decide +kernel

end Sys2Proof.Machine
end

