-- ==== Sys2Proof/Laws/PerInstr.lean ====
section
/-! SUPPORT. A statement about every instruction, proved constructor by constructor. -/

namespace Sys2Proof.Laws.EncodesLegally

/-- The command word of an instruction splits into fields that pass every check of R63, R64 and R62, with RSV = 0, and
with V = 0 unless the instruction is a set-bit operation that writes 1. -/
abbrev Statement (i : Instr) : Prop :=
  (splitCmd (encode i)).wellFormed = true ∧ (encode i).getLsbD 7 = false ∧
  ((encode i).getLsbD 6 = true ↔ i = .setB true ∨ i = .setW true ∨ i = .setD true)

theorem getB : Statement .getB := by decide
theorem setB (v : Bool) : Statement (.setB v) := by
  cases v <;> decide
theorem rolB : Statement .rolB := by decide
theorem rorB : Statement .rorB := by decide
theorem revB : Statement .revB := by decide
theorem invB : Statement .invB := by decide
theorem getW : Statement .getW := by decide
theorem setW (v : Bool) : Statement (.setW v) := by
  cases v <;> decide
theorem rolW : Statement .rolW := by decide
theorem rorW : Statement .rorW := by decide
theorem revW : Statement .revW := by decide
theorem invW : Statement .invW := by decide
theorem composeW : Statement .composeW := by decide
theorem decomposeW : Statement .decomposeW := by decide
theorem swapW : Statement .swapW := by decide
theorem getD : Statement .getD := by decide
theorem setD (v : Bool) : Statement (.setD v) := by
  cases v <;> decide
theorem rolD : Statement .rolD := by decide
theorem rorD : Statement .rorD := by decide
theorem revD : Statement .revD := by decide
theorem invD : Statement .invD := by decide
theorem composeD : Statement .composeD := by decide
theorem decomposeD : Statement .decomposeD := by decide
theorem swapD : Statement .swapD := by decide
theorem fdecode : Statement .fdecode := by decide

end Sys2Proof.Laws.EncodesLegally
end

