-- ==== Sys2Proof/Tests/Slice0.lean ====
section
/-! SUPPORT. Tests of the model. Expected values are those of spec/95_test_vectors.md (V<n>) and of the opcode map, R68. -/

namespace Sys2Proof.Tests

open Sys2Proof.Machine

/-! ### The checks of WellFormed: one ill-formed term for each, which the check refuses -/

theorem test_wellFormed_refuses_reserved_bit :
    ({ rsv := 1, v := 0, tier := 0, fn := 0 } : Cmd8).illegal? = some .reservedBitSet := by decide

theorem test_wellFormed_refuses_value_bit_on_rol :
    ({ rsv := 0, v := 1, tier := 0, fn := 2 } : Cmd8).illegal? = some .valueBitOutsideSet := by decide

theorem test_wellFormed_refuses_value_bit_in_float_tier :
    ({ rsv := 0, v := 1, tier := 3, fn := 1 } : Cmd8).illegal? = some .valueBitOutsideSet := by decide

theorem test_wellFormed_refuses_unassigned_function :
    ({ rsv := 0, v := 0, tier := 0, fn := 6 } : Cmd8).illegal? = some .functionUnassigned ∧
    ({ rsv := 0, v := 0, tier := 2, fn := 9 } : Cmd8).wellFormed = false := by decide

theorem test_wellFormed_accepts_set :
    ({ rsv := 0, v := 1, tier := 2, fn := 1 } : Cmd8).wellFormed = true := by decide

/-! ### Every constructor's word, written out bit by bit from R60 and R68: RSV, V, TIER, FN -/

/-- What the decoder reads, or none. -/
def read (c : BitVec 8) : Option Instr := decodeTableWord 8 c.toNat

theorem test_decode_byte_tier :
    read 0b00000000 = some .getB ∧
    read 0b00000001 = some (.setB false) ∧
    read 0b01000001 = some (.setB true) ∧
    read 0b00000010 = some .rolB ∧
    read 0b00000011 = some .rorB ∧
    read 0b00000100 = some .revB ∧
    read 0b00000101 = some .invB := by decide

theorem test_decode_word_tier :
    read 0b00010000 = some .getW ∧
    read 0b00010001 = some (.setW false) ∧
    read 0b01010001 = some (.setW true) ∧
    read 0b00010010 = some .rolW ∧
    read 0b00010011 = some .rorW ∧
    read 0b00010100 = some .revW ∧
    read 0b00010101 = some .invW ∧
    read 0b00010110 = some .composeW ∧
    read 0b00010111 = some .decomposeW ∧
    read 0b00011000 = some .swapW := by decide

theorem test_decode_dword_tier :
    read 0b00100000 = some .getD ∧
    read 0b00100001 = some (.setD false) ∧
    read 0b01100001 = some (.setD true) ∧
    read 0b00100010 = some .rolD ∧
    read 0b00100011 = some .rorD ∧
    read 0b00100100 = some .revD ∧
    read 0b00100101 = some .invD ∧
    read 0b00100110 = some .composeD ∧
    read 0b00100111 = some .decomposeD ∧
    read 0b00101000 = some .swapD := by decide

theorem test_decode_float_tier :
    read 0b00110000 = some .fdecode := by decide

theorem test_decode_refuses_by_reason :
    (decode 0x80).toOption = none ∧ splitCmd 0xC1 = { rsv := 1, v := 1, tier := 0, fn := 1 } ∧
    (splitCmd 0x71).illegal? = some .valueBitOutsideSet ∧ (splitCmd 0x2F).illegal? = some .functionUnassigned := by
  decide +kernel

/-! ### One step on small states -/

/-- The response to one command taken right after reset. -/
def answerTo (c : BitVec 8) (a b : DWord) : Option Response := (serve { cmd := c, a := a, b := b } State.reset).response

/-- The step is a fault. -/
def faults (c : BitVec 8) (a b : DWord) : Bool :=
  match step { cmd := some c, a := a, b := b, response := none } with
  | .fault _ => true
  | .next _ => false
  | .refused _ => false

/-- V5. -/
theorem test_getB_V5 : answerTo 0x00 0x000000BD 0xFFFFFFFF = some ⟨0x00000000, 0x00000000, true, false⟩ := by decide
/-- V10. -/
theorem test_getB_V10 : answerTo 0x00 0x000001FF 0x00000008 = some ⟨0x00000000, 0x00000000, true, false⟩ := by decide
/-- V17. -/
theorem test_setB_V17 : answerTo 0x41 0x00000000 0xFFFFFFF7 = some ⟨0x00000080, 0x00000000, false, false⟩ := by decide
/-- V19. -/
theorem test_setB_V19 : answerTo 0x01 0x000001FF 0x00000000 = some ⟨0x000000FE, 0x00000000, false, false⟩ := by decide
/-- V22. -/
theorem test_rolB_V22 : answerTo 0x02 0x000000F0 0x00000005 = some ⟨0x0000001E, 0x00000000, false, false⟩ := by decide
/-- V29. -/
theorem test_rolB_V29 : answerTo 0x02 0x00000081 0xFFFFFFFF = some ⟨0x000000C0, 0x00000000, false, false⟩ := by decide
/-- V23. -/
theorem test_rorB_V23 : answerTo 0x03 0x000000F0 0x00000005 = some ⟨0x00000087, 0x00000000, false, false⟩ := by decide
/-- V32. -/
theorem test_rorB_V32 : answerTo 0x03 0x00000001 0x00000009 = some ⟨0x00000080, 0x00000000, false, false⟩ := by decide
/-- V39. -/
theorem test_revB_V39 : answerTo 0x04 0x00000035 0x00000000 = some ⟨0x000000AC, 0x00000000, false, false⟩ := by decide
/-- V44. -/
theorem test_revB_V44 : answerTo 0x04 0x000001FF 0x00000000 = some ⟨0x000000FF, 0x00000000, false, false⟩ := by decide
/-- V46. -/
theorem test_invB_V46 : answerTo 0x05 0x00000035 0x00000000 = some ⟨0x000000CA, 0x00000000, false, false⟩ := by decide
/-- V50. -/
theorem test_invB_V50 : answerTo 0x05 0xFFFFFF00 0x00000000 = some ⟨0x000000FF, 0x00000000, false, false⟩ := by decide
/-- V51. -/
theorem test_getW_V51 : answerTo 0x10 0x00000100 0x00000008 = some ⟨0x00000000, 0x00000000, true, false⟩ := by decide
/-- V57. -/
theorem test_getW_V57 : answerTo 0x10 0x00010000 0x00000000 = some ⟨0x00000000, 0x00000000, false, false⟩ := by decide
/-- V61. -/
theorem test_setW_V61 : answerTo 0x11 0x0000FFFF 0x00000007 = some ⟨0x0000FF7F, 0x00000000, false, false⟩ := by decide
/-- V63. -/
theorem test_setW_V63 : answerTo 0x51 0x00001234 0x00000013 = some ⟨0x0000123C, 0x00000000, false, false⟩ := by decide
/-- V69. -/
theorem test_rolW_V69 : answerTo 0x12 0x0000ABCD 0x00000004 = some ⟨0x0000BCDA, 0x00000000, false, false⟩ := by decide
/-- V72. -/
theorem test_rolW_V72 : answerTo 0x12 0x0000ABCD 0xFFFFFFFC = some ⟨0x0000DABC, 0x00000000, false, false⟩ := by decide
/-- V67. -/
theorem test_rorW_V67 : answerTo 0x13 0x00008001 0x00000001 = some ⟨0x0000C000, 0x00000000, false, false⟩ := by decide
/-- V70. -/
theorem test_rorW_V70 : answerTo 0x13 0x0000ABCD 0x00000004 = some ⟨0x0000DABC, 0x00000000, false, false⟩ := by decide
/-- V79. -/
theorem test_revW_V79 : answerTo 0x14 0x00000080 0x00000000 = some ⟨0x00000100, 0x00000000, false, false⟩ := by decide
/-- V81. -/
theorem test_revW_V81 : answerTo 0x14 0x00001234 0x00000000 = some ⟨0x00002C48, 0x00000000, false, false⟩ := by decide
/-- V88. -/
theorem test_invW_V88 : answerTo 0x15 0x00001234 0x00000000 = some ⟨0x0000EDCB, 0x00000000, false, false⟩ := by decide
/-- V91. -/
theorem test_invW_V91 : answerTo 0x15 0xFFFF0000 0x00000000 = some ⟨0x0000FFFF, 0x00000000, false, false⟩ := by decide
/-- V92. -/
theorem test_composeW_V92 : answerTo 0x16 0x000000AB 0x000000CD = some ⟨0x0000ABCD, 0x00000000, false, false⟩ := by decide
/-- V95. -/
theorem test_composeW_V95 : answerTo 0x16 0x000001FF 0x000002FF = some ⟨0x0000FFFF, 0x00000000, false, false⟩ := by decide
/-- V96. -/
theorem test_decomposeW_V96 : answerTo 0x17 0x0000ABCD 0x00000000 = some ⟨0x000000AB, 0x000000CD, false, false⟩ := by decide
/-- V97. -/
theorem test_decomposeW_V97 : answerTo 0x17 0x00FFABCD 0x00000000 = some ⟨0x000000AB, 0x000000CD, false, false⟩ := by decide
/-- V99. -/
theorem test_swapW_V99 : answerTo 0x18 0x0000ABCD 0x00000000 = some ⟨0x0000CDAB, 0x00000000, false, false⟩ := by decide
/-- V102. -/
theorem test_swapW_V102 : answerTo 0x18 0x12345678 0x00000000 = some ⟨0x00007856, 0x00000000, false, false⟩ := by decide
/-- V105. -/
theorem test_getD_V105 : answerTo 0x20 0x00010000 0x00000010 = some ⟨0x00000000, 0x00000000, true, false⟩ := by decide
/-- V106. -/
theorem test_getD_V106 : answerTo 0x20 0x00010000 0x0000000F = some ⟨0x00000000, 0x00000000, false, false⟩ := by decide
/-- V110. -/
theorem test_setD_V110 : answerTo 0x21 0xFFFFFFFF 0x00000010 = some ⟨0xFFFEFFFF, 0x00000000, false, false⟩ := by decide
/-- V112. -/
theorem test_setD_V112 : answerTo 0x61 0x00000000 0xFFFFFFFF = some ⟨0x80000000, 0x00000000, false, false⟩ := by decide
/-- V119. -/
theorem test_rolD_V119 : answerTo 0x22 0x12345678 0x00000008 = some ⟨0x34567812, 0x00000000, false, false⟩ := by decide
/-- V122. -/
theorem test_rolD_V122 : answerTo 0x22 0x12345678 0xFFFFFFF8 = some ⟨0x78123456, 0x00000000, false, false⟩ := by decide
/-- V117. -/
theorem test_rorD_V117 : answerTo 0x23 0x80000001 0x00000004 = some ⟨0x18000000, 0x00000000, false, false⟩ := by decide
/-- V120. -/
theorem test_rorD_V120 : answerTo 0x23 0x12345678 0x00000008 = some ⟨0x78123456, 0x00000000, false, false⟩ := by decide
/-- V128. -/
theorem test_revD_V128 : answerTo 0x24 0x00000080 0x00000000 = some ⟨0x01000000, 0x00000000, false, false⟩ := by decide +kernel
/-- V129. -/
theorem test_revD_V129 : answerTo 0x24 0x12345678 0x00000000 = some ⟨0x1E6A2C48, 0x00000000, false, false⟩ := by decide +kernel
/-- V133. -/
theorem test_invD_V133 : answerTo 0x25 0x0000FFFF 0x00000000 = some ⟨0xFFFF0000, 0x00000000, false, false⟩ := by decide
/-- V134. -/
theorem test_invD_V134 : answerTo 0x25 0x12345678 0x00000000 = some ⟨0xEDCBA987, 0x00000000, false, false⟩ := by decide
/-- V138. -/
theorem test_composeD_V138 : answerTo 0x26 0x0001C3C0 0x00009400 = some ⟨0xC3C09400, 0x00000000, false, false⟩ := by decide
/-- V139. -/
theorem test_composeD_V139 : answerTo 0x26 0x0000FFFF 0xFFFF0000 = some ⟨0xFFFF0000, 0x00000000, false, false⟩ := by decide
/-- V140. -/
theorem test_decomposeD_V140 : answerTo 0x27 0x12345678 0x00000000 = some ⟨0x00001234, 0x00005678, false, false⟩ := by decide
/-- V141. -/
theorem test_decomposeD_V141 : answerTo 0x27 0xC3C09400 0x00000000 = some ⟨0x0000C3C0, 0x00009400, false, false⟩ := by decide
/-- V142. -/
theorem test_swapD_V142 : answerTo 0x28 0x12345678 0x00000000 = some ⟨0x56781234, 0x00000000, false, false⟩ := by decide
/-- V144. -/
theorem test_swapD_V144 : answerTo 0x28 0xABCDABCD 0x00000000 = some ⟨0xABCDABCD, 0x00000000, false, false⟩ := by decide
/-- V159. -/
theorem test_fdecode_V159 : answerTo 0x30 0x00000003 0x00000000 = some ⟨0x00400002, 0x00000000, false, false⟩ := by decide

/-- V165. -/
theorem test_illegal_V165 : answerTo 0x06 0x00000012 0x00000003 = some ⟨0x00000000, 0x00000000, false, true⟩ ∧ faults 0x06 0x00000012 0x00000003 = true := by decide
/-- V174. -/
theorem test_illegal_V174 : answerTo 0x42 0x000000F0 0x00000005 = some ⟨0x00000000, 0x00000000, false, true⟩ ∧ faults 0x42 0x000000F0 0x00000005 = true := by decide
/-- V180. -/
theorem test_illegal_V180 : answerTo 0xFF 0xFFFFFFFF 0xFFFFFFFF = some ⟨0x00000000, 0x00000000, false, true⟩ ∧ faults 0xFF 0xFFFFFFFF 0xFFFFFFFF = true := by decide

/-- V152: the result is P_NAN itself, which has no body to compute with. -/
theorem test_fdecode_V152 : answerTo 0x30 0x7FC00000 0 = some (replyY Config.pNan) := by rfl

/-- A word of the opcode table presented right after reset is what the next step runs. -/
theorem test_withFetchWord_runs_inv_w :
    (settle State.reset (step (State.reset.withFetchWord 8 0x15))).response = some ⟨0xFFFF, 0, false, false⟩ := by
  decide +kernel

/-- 95_test_vectors.md P5: the command after an illegal one is answered normally, and the fault's response is not
assigned to the host's variable. -/
theorem test_program_P5_recovers :
    (runLines [⟨["h1"], .raw 0x42, .literal 0xF0, .literal 4⟩, ⟨["h2"], .core .rolB, .literal 0xF0, .literal 4⟩] []
      State.reset).1 = [("h2", 0x0F)] := by decide

/-- 95_test_vectors.md P2, step 1: `h1, h2 = decompose.w 0xABCD`. -/
theorem test_assembler_two_results :
    (runLine ⟨["h1", "h2"], .core .decomposeW, .literal 0xABCD, .omitted⟩ [] State.reset).1 =
      [("h1", 0xAB), ("h2", 0xCD)] := by decide

/-- 95_test_vectors.md P4, step 3, written with the operator `@.b`: T is assigned as 1. -/
theorem test_assembler_bit_test :
    (runLine ⟨["t2"], .pseudo (.bitTest .b), .literal 0xB4, .literal 2⟩ [] State.reset).1 = [("t2", 1)] := by decide

/-- PseudoInstructionExpansions: a form of its list, in a tier. -/
theorem witness_pseudo_form :
    Pseudo.rotrSign .d ∈ [Pseudo.bset .d, .bclr .d, .not .d, .rotl .d, .rotr .d, .rotlSign .d, .rotrSign .d] := by decide

/-- The spellings of R73 and R74. -/
theorem test_assembler_text :
    (⟨["hi", "lo"], .core .decomposeW, .var "x", .omitted⟩ : Line).text = "hi, lo = decompose.w x" ∧
    (⟨["y"], .core (.setB true), .var "x", .var "i"⟩ : Line).text = "y = set.b x, i, 1" ∧
    (⟨["y"], .core (.setB true), .var "x", .omitted⟩ : Line).text = "y = set.b x, 0, 1" ∧
    (⟨["y"], .pseudo (.rotlSign .w), .var "x", .var "n"⟩ : Line).text = "y = x <<<.w n" := by decide

/-! ### Witnesses: the hypotheses of the statements can be met -/

/-- FdecodeNaNIgnoresSignAndFraction: the lowest and the highest fraction that is not 0. -/
theorem witness_nan_fraction : (1 : BitVec 23) ≠ 0 ∧ (0x7FFFFF : BitVec 23) ≠ 0 := by decide

/-- FdecodeClosedForm: an input of each class, at the classes' borders (V148, V149, V150, V153, V162). -/
theorem witness_closed_form_classes :
    ((0x00800000#32).extractLsb' 23 8).toNat = 1 ∧ ((0x7F7FFFFF#32).extractLsb' 23 8).toNat = 254 ∧
    (((0x7F800000#32).extractLsb' 23 8).toNat = 255 ∧ (0x7F800000#32).extractLsb' 0 23 = 0) ∧
    (((0x7F800001#32).extractLsb' 23 8).toNat = 255 ∧ (0x7F800001#32).extractLsb' 0 23 ≠ 0) ∧
    ((0x007FFFFF#32).extractLsb' 23 8).toNat = 0 := by decide

/-- RoundingIsNearestEven, the tie: 2^24 + 1 lies midway between the patterns 0x4B800000 and 0x4B800001. -/
theorem witness_rounding_tie :
    rne32 ⟨false, 2 ^ 24 + 1, 0⟩ = 0x4B800000 ∧ Finite32 0x4B800000 ∧ Finite32 0x4B800001 ∧
    |(⟨false, 2 ^ 24 + 1, 0⟩ : ExactReal).value - binary32Value 0x4B800000| =
      |(⟨false, 2 ^ 24 + 1, 0⟩ : ExactReal).value - binary32Value 0x4B800001| ∧
    binary32Value 0x4B800001 ≠ binary32Value 0x4B800000 := by
  have h0 : binary32Value 0x4B800000 = 2 ^ 24 := by
    simp only [binary32Value, show ((0x4B800000 : DWord).extractLsb' 23 8).toNat = 151 by decide +kernel,
      show ((0x4B800000 : DWord).extractLsb' 0 23).toNat = 0 by decide +kernel,
      show (0x4B800000 : DWord).getLsbD 31 = false by decide +kernel]
    norm_num
  have h1 : binary32Value 0x4B800001 = 2 ^ 24 + 2 := by
    simp only [binary32Value, show ((0x4B800001 : DWord).extractLsb' 23 8).toNat = 151 by decide +kernel,
      show ((0x4B800001 : DWord).extractLsb' 0 23).toNat = 1 by decide +kernel,
      show (0x4B800001 : DWord).getLsbD 31 = false by decide +kernel]
    norm_num
  refine ⟨by decide +kernel, by decide +kernel, by decide +kernel, ?_, ?_⟩
  · rw [h0, h1]
    norm_num [ExactReal.value]
  · rw [h0, h1]
    norm_num

/-- RoundingIsNearestEven, the border to infinity: the middle between the largest finite value and 2^128 rounds to
infinity, the number half a last place below it to the largest finite value. -/
theorem witness_rounding_overflow :
    rne32 ⟨true, 2 ^ 25 - 1, 103⟩ = 0xFF800000 ∧ ¬ Finite32 (rne32 ⟨true, 2 ^ 25 - 1, 103⟩) ∧
    rne32 ⟨false, 2 ^ 26 - 3, 102⟩ = 0x7F7FFFFF ∧ Finite32 (rne32 ⟨false, 2 ^ 26 - 3, 102⟩) := by
  decide +kernel

/-- GetAfterSet: two indices that reduce to different positions, at each width. -/
theorem witness_different_indices :
    reduced 8 1 ≠ reduced 8 0 ∧ reduced 16 1 ≠ reduced 16 0 ∧ reduced 32 0xFFFFFFFF ≠ reduced 32 0 := by
  decide +kernel

/-- UnnamedPortsHaveFixedValues: an operation in each list and one outside each. -/
theorem witness_port_classes :
    Instr.getW ∈ [Instr.getB, .getW, .getD] ∧ Instr.rolB ∉ [Instr.getB, .getW, .getD] ∧
    Instr.rolB ∉ [Instr.decomposeW, .decomposeD] ∧ Instr.getD ∉ [Instr.decomposeW, .decomposeD] := by decide

/-- IllegalCommandWords, OnlyIllegalCommandsRaise, IllegalCommandResponse: a word refused for each reason, and the step
that takes one. -/
theorem witness_illegal_words :
    decode 0x80 = .error .reservedBitSet ∧ decode 0x42 = .error .valueBitOutsideSet ∧
    decode 0x06 = .error .functionUnassigned ∧ listedIllegal 0x42 = true ∧
    ∃ f, step ⟨some 0x42, 0xF0, 4, none⟩ = .fault f :=
  ⟨by rfl, by rfl, by rfl, by decide +kernel, ⟨_, rfl⟩⟩

/-- StepRunsTheDecodedOperation, and the second half of DecodeEncodeAgree. -/
theorem witness_decoded_step :
    (⟨some 0x16, 0xAB, 0xCD, none⟩ : State).cmd = some 0x16 ∧ decode 0x16 = .ok .composeW :=
  ⟨rfl, by rfl⟩

/-- StepWithoutCommandIsIdle. -/
theorem witness_no_command : State.reset.cmd = none := rfl

/-- ResponseDependsOnlyOnTheCommand: two different states that agree on the command and its operands. -/
theorem witness_same_command :
    ∃ s s' : State, s.cmd = some 0x02 ∧ s'.cmd = some 0x02 ∧ s.a = s'.a ∧ s.b = s'.b ∧ s ≠ s' :=
  ⟨⟨some 0x02, 0xF0, 5, none⟩, ⟨some 0x02, 0xF0, 5, some replyIllegal⟩, rfl, rfl, rfl, rfl, by decide⟩

/-- StepKeepsPortsLegal: a state with a legal response in which a step gives a next state. -/
theorem witness_portsLegal :
    (⟨some 0x27, 0x12345678, 0, some replyIllegal⟩ : State).PortsLegal ∧
    ∃ t, step ⟨some 0x27, 0x12345678, 0, some replyIllegal⟩ = .next t := by
  refine ⟨?_, ⟨_, rfl⟩⟩
  intro r hr
  obtain rfl : replyIllegal = r := by simpa using hr
  decide

/-- StepKeepsResponseEarned: a state whose response a command earned, in which a step gives a next state. -/
theorem witness_responseEarned :
    (⟨some 0x00, 9, 0, some replyIllegal⟩ : State).ResponseEarned ∧
    ∃ t, step ⟨some 0x00, 9, 0, some replyIllegal⟩ = .next t := by
  refine ⟨?_, ⟨_, rfl⟩⟩
  intro r hr
  obtain rfl : replyIllegal = r := by simpa using hr
  exact ⟨⟨0x42, 0, 0⟩, rfl⟩

/-- ResponsesComeOnePerCommandInOrder: a safe program and one that is not. -/
theorem witness_programs :
    SafeProgram [⟨0x00, 9, 0⟩, ⟨0x41, 52, 7⟩] ∧ ¬ SafeProgram [⟨0x42, 0xF0, 4⟩] := by
  constructor
  · intro c hc
    simp only [List.mem_cons, List.not_mem_nil, or_false] at hc
    rcases hc with rfl | rfl
    · exact ⟨_, rfl⟩
    · exact ⟨_, rfl⟩
  · intro h
    obtain ⟨i, hi⟩ := h ⟨0x42, 0xF0, 4⟩ (by simp)
    cases hi

end Sys2Proof.Tests
end

section
/-! SUPPORT. The response of a command: which ports an operation sets, and that the command's own CMD, A and B fix
what the block answers (10_state.md R23, R24). -/

namespace Sys2Proof.Machine

/-- An operation reads nothing of the state but the operand ports (R23). -/
theorem exec_eq_of_operands_eq (i : Instr) {s s' : State} (ha : s.a = s'.a) (hb : s.b = s'.b) :
    exec i s = exec i s' := by
  obtain ⟨c, a, b, r⟩ := s
  obtain ⟨c', a', b', r'⟩ := s'
  obtain rfl : a = a' := ha
  obtain rfl : b = b' := hb
  cases i <;> rfl

/-- Running an operation from one state with A and B on the ports decides what it gives from every such state. -/
theorem gives_of_exec {i : Instr} {a b : DWord} {r : Response}
    (h : exec i ⟨none, a, b, none⟩ = reply ⟨none, a, b, none⟩ r) : Gives i a b r :=
  fun _ ha hb => (exec_eq_of_operands_eq i ha hb).trans h

/-- Everything an operation can give: T alone, the get-bit operations; Y and Z, the decompose operations; Y alone, all
others (R24). -/
theorem gives_cases (i : Instr) (a b : DWord) :
    (i ∈ [Instr.getB, .getW, .getD] ∧ ∃ t, Gives i a b (replyT t)) ∨
    (i ∉ [Instr.getB, .getW, .getD] ∧ i ∈ [Instr.decomposeW, .decomposeD] ∧ ∃ y z, Gives i a b (replyYZ y z)) ∨
    (i ∉ [Instr.getB, .getW, .getD] ∧ i ∉ [Instr.decomposeW, .decomposeD] ∧ ∃ y, Gives i a b (replyY y)) := by
  cases i with
  | getB | getW | getD => exact .inl ⟨by simp, _, gives_of_exec rfl⟩
  | decomposeW | decomposeD => exact .inr (.inl ⟨by simp, by simp, _, _, gives_of_exec rfl⟩)
  | _ => exact .inr (.inr ⟨by simp, by simp, _, gives_of_exec rfl⟩)

/-- Settles O44, from the three forms of `gives_cases`. -/
theorem unnamedPortsHaveFixedValues : Obligations.UnnamedPortsHaveFixedValues := by
  intro i a b
  rcases gives_cases i a b with ⟨hget, t, h⟩ | ⟨hget, hdec, y, z, h⟩ | ⟨hget, -, y, h⟩
  · exact ⟨_, h, replyT_ill t, fun hn => absurd hget hn, fun _ => replyT_y t, fun _ => replyT_z t⟩
  · exact ⟨_, h, replyYZ_ill y z, fun _ => replyYZ_t y z, fun hi => absurd hi hget, fun hn => absurd hdec hn⟩
  · exact ⟨_, h, replyY_ill y, fun _ => replyY_t y, fun hi => absurd hi hget, fun _ => replyY_z y⟩

/-- With a legal command presented, a step is the decoded operation (R69). -/
theorem step_of_decode_ok {s : State} {c : BitVec 8} {i : Instr} (hc : s.cmd = some c) (hd : decode c = .ok i) :
    step s = exec i s := by
  simp [step, fetch, hc, hd]

/-- With an illegal command presented, a step takes IllegalCommand (R69). -/
theorem step_of_decode_error {s : State} {c : BitVec 8} {why : IllegalReason} (hc : s.cmd = some c)
    (hd : decode c = .error why) : step s = takeIllegalCommand why s := by
  simp [step, fetch, hc, hd]

/-- CMD, A and B fix one response, which the block answers from every state that presents them, legal command or not. -/
theorem exists_settle_step_eq_answer (c : BitVec 8) (a b : DWord) :
    ∃ r, ∀ s : State, s.cmd = some c → s.a = a → s.b = b → settle s (step s) = s.answer r := by
  cases hd : decode c with
  | ok i =>
    obtain ⟨r, hr, -⟩ := unnamedPortsHaveFixedValues i a b
    refine ⟨r, fun s hc ha hb => ?_⟩
    rw [step_of_decode_ok hc hd, hr s ha hb, settle_next, State.answer, ha, hb]
  | error why =>
    refine ⟨replyIllegal, fun s hc _ _ => ?_⟩
    rw [step_of_decode_error hc hd, takeIllegalCommand_eq, settle_fault, Fault.after_illegalCommand]

/-- Settles O53: both states answer the one response that their CMD, A and B fix. -/
theorem responseDependsOnlyOnTheCommand : Obligations.ResponseDependsOnlyOnTheCommand := by
  intro s s' c hc hc' ha hb
  obtain ⟨r, hr⟩ := exists_settle_step_eq_answer c s'.a s'.b
  simp [hr s hc ha hb, hr s' hc' rfl rfl]

end Sys2Proof.Machine
end

section
/-! SUPPORT. What repeating a command does, and the bits of a composed value as the get-bit operations read them
(20_memory.md R42, R46). -/

namespace Sys2Proof.Machine

/-! ### Repeating a command -/

/-- A command fixes one response, which serving it from any state puts on the ports (R23). -/
theorem exists_serve_eq_answer (c : Command) : ∃ r, ∀ s : State, serve c s = (s.present c).answer r := by
  obtain ⟨r, hr⟩ := exists_settle_step_eq_answer c.cmd c.a c.b
  exact ⟨r, fun s => hr (s.present c) rfl rfl rfl⟩

/-- Presenting a command and answering it overwrite every port, so what stood there before is lost. -/
theorem answer_present_overwrites (c : Command) (s s' : State) (r : Response) :
    (s.present c).answer r = (s'.present c).answer r := rfl

/-- Settles O54: the second answer is the same response on the same ports. -/
theorem repeatedCommandSameResponse : Obligations.RepeatedCommandSameResponse := by
  intro c s
  obtain ⟨r, hr⟩ := exists_serve_eq_answer c
  constructor
  · calc serve c (serve c s) = ((serve c s).present c).answer r := hr _
      _ = (s.present c).answer r := answer_present_overwrites c _ s r
      _ = serve c s := (hr s).symm
  · simp [hr s]

/-! ### Narrow values on wide ports -/

/-- An index that already names a bit of the width is its own reduction (R67). -/
theorem idx_ofNat_of_lt {n k : Nat} (hk : k < n) (hn : n ≤ 2 ^ 31) : idx n (BitVec.ofNat 32 k) = k := by
  have hpat : (BitVec.ofNat 32 k).toNat = k := by rw [BitVec.toNat_ofNat, Nat.mod_eq_of_lt (by omega)]
  rw [idx, BitVec.toInt_eq_toNat_of_lt (by omega), hpat, Int.emod_eq_of_lt (by omega) (by omega), Int.toNat_natCast]

/-- A byte zero-extended onto a port is read back (R25, R65). -/
@[simp] theorem byteOperand_setWidth (x : Byte) : byteOperand (x.setWidth 32) = x :=
  (BitVec.extractLsb'_setWidth_of_le (by omega)).trans BitVec.extractLsb'_eq_self

/-- A word zero-extended onto a port is read back (R25, R65). -/
@[simp] theorem wordOperand_setWidth (x : Word) : wordOperand (x.setWidth 32) = x :=
  (BitVec.extractLsb'_setWidth_of_le (by omega)).trans BitVec.extractLsb'_eq_self

/-! ### Compose and get -/

theorem gives_composeW (h l : Byte) :
    Gives .composeW (h.setWidth 32) (l.setWidth 32) (replyY ((composeWord h l).setWidth 32)) :=
  gives_of_exec (by rw [exec_composeW, byteOperand_setWidth, byteOperand_setWidth]; rfl)

theorem gives_composeD (h l : Word) :
    Gives .composeD (h.setWidth 32) (l.setWidth 32) (replyY (composeDoubleWord h l)) :=
  gives_of_exec (by rw [exec_composeD, wordOperand_setWidth, wordOperand_setWidth]; rfl)

/-- get.b at an index below 8 gives that bit (R101). -/
theorem gives_getB_of_lt (x : Byte) {k : Nat} (hk : k < 8) :
    Gives .getB (x.setWidth 32) (BitVec.ofNat 32 k) (replyT (x.getLsbD k)) :=
  gives_of_exec (by rw [exec_getB, getBit8_eq, byteOperand_setWidth, idx8, idx_ofNat_of_lt hk (by omega)]; rfl)

/-- get.w at an index below 16 gives that bit (R131). -/
theorem gives_getW_of_lt (x : Word) {k : Nat} (hk : k < 16) :
    Gives .getW (x.setWidth 32) (BitVec.ofNat 32 k) (replyT (x.getLsbD k)) :=
  gives_of_exec (by rw [exec_getW, getBit16_eq, wordOperand_setWidth, idx16, idx_ofNat_of_lt hk (by omega)]; rfl)

/-- get.d at an index below 32 gives that bit (R171). -/
theorem gives_getD_of_lt (x : DWord) {k : Nat} (hk : k < 32) :
    Gives .getD x (BitVec.ofNat 32 k) (replyT (x.getLsbD k)) :=
  gives_of_exec (by rw [exec_getD, getBit32_eq, dwordOperand, idx32, idx_ofNat_of_lt hk (by omega)]; rfl)

/-- Bits 15:8 of a composed word on a port are its high byte (R41). -/
theorem extractHigh_composeWord (h l : Byte) : ((composeWord h l).setWidth 32).extractLsb' 8 8 = h :=
  (BitVec.extractLsb'_setWidth_of_le (by omega)).trans (highByte_composeWord h l)

/-- Bits 7:0 of a composed word on a port are its low byte (R41). -/
theorem extractLow_composeWord (h l : Byte) : ((composeWord h l).setWidth 32).extractLsb' 0 8 = l :=
  (BitVec.extractLsb'_setWidth_of_le (by omega)).trans (lowByte_composeWord h l)

/-- Settles O39: get reads the composed value's bits, which `getLsbD_composeWord` and `getLsbD_composeDoubleWord`
find in the half below the border and in the half above it. -/
theorem mixedWidthView : Obligations.MixedWidthView := by
  constructor
  · intro h l k
    refine ⟨_, _, gives_composeW h l, extractHigh_composeWord h l, extractLow_composeWord h l,
      gives_getW_of_lt _ k.isLt, ?_⟩
    rw [getLsbD_composeWord]
    split_ifs with hk
    · exact gives_getB_of_lt l hk
    · exact gives_getB_of_lt h (by omega)
  · intro h l k
    refine ⟨_, _, gives_composeD h l, highWord_composeDoubleWord h l, lowWord_composeDoubleWord h l,
      gives_getD_of_lt _ k.isLt, ?_⟩
    rw [getLsbD_composeDoubleWord]
    split_ifs with hk
    · exact gives_getW_of_lt l hk
    · exact gives_getW_of_lt h (by omega)

end Sys2Proof.Machine
end

section
/-! SUPPORT. What a reduced index is (30_encoding.md R67). -/

namespace Sys2Proof.Machine

/-- The signed value of a port's pattern and its unsigned value leave the same remainder by 2^k: they differ by a
multiple of 2^32. -/
theorem toInt_emod_two_pow (b : DWord) {k : Nat} (hk : k ≤ 32) :
    b.toInt % ((2 ^ k : Nat) : Int) = ((b.toNat % 2 ^ k : Nat) : Int) := by
  have hdvd : ((2 ^ k : Nat) : Int) ∣ ((2 ^ 32 : Nat) : Int) := Int.natCast_dvd_natCast.mpr (pow_dvd_pow 2 hk)
  rw [BitVec.toInt_eq_toNat_bmod, ← Int.emod_emod_of_dvd _ hdvd, Int.bmod_emod, Int.emod_emod_of_dvd _ hdvd,
    Int.natCast_emod]

/-- A width of 2^k reduces an index to the low k bits of B (R67). -/
theorem idx_two_pow (b : DWord) {k : Nat} (hk : k ≤ 32) : idx (2 ^ k) b = (b.extractLsb' 0 k).toNat := by
  rw [idx, toInt_emod_two_pow b hk, Int.toNat_natCast, BitVec.extractLsb'_toNat, Nat.shiftRight_zero]

/-- Settles O40: the widths are 2^3, 2^4 and 2^5. -/
theorem indexIsFlooredModulo : Obligations.IndexIsFlooredModulo :=
  ⟨fun b => ⟨rfl, idx_two_pow b (k := 3) (by omega)⟩,
    fun b => ⟨rfl, idx_two_pow b (k := 4) (by omega)⟩,
    fun b => ⟨rfl, idx_two_pow b (k := 5) (by omega)⟩,
    by decide, by decide, by decide, by decide⟩

end Sys2Proof.Machine
end

section
/-! SUPPORT. The decoder inverts the encoder, and the opcode map is the encoder row by row (30_encoding.md R60 to R69). -/

namespace Sys2Proof.Machine

/-! ### The decoder and the encoder -/

/-- Every instruction is read back from its word. -/
theorem decode_encode (i : Instr) : decode (encode i) = .ok i := by
  cases i with
  | setB v | setW v | setD v => cases v <;> rfl
  | _ => rfl

/-- The fields of a legal function of a tier: V is free for the set functions and 0 for the others (R62, R63). -/
def legalFields (tier : Tier) (v : Bool) (fn : BitVec 4) : Cmd8 :=
  if fn = 0x1 ∧ tier ≠ .float then setFields tier v else plainFields tier fn

theorem instrFields_of_decodeByteFn {v : Bool} {fn : BitVec 4} {i : Instr} (h : decodeByteFn v fn = .ok i) :
    instrFields i = legalFields .byte v fn := by
  unfold decodeByteFn at h
  split at h <;> cases h <;> rfl

theorem instrFields_of_decodeWordFn {v : Bool} {fn : BitVec 4} {i : Instr} (h : decodeWordFn v fn = .ok i) :
    instrFields i = legalFields .word v fn := by
  unfold decodeWordFn at h
  split at h <;> cases h <;> rfl

theorem instrFields_of_decodeDwordFn {v : Bool} {fn : BitVec 4} {i : Instr} (h : decodeDwordFn v fn = .ok i) :
    instrFields i = legalFields .dword v fn := by
  unfold decodeDwordFn at h
  split at h <;> cases h <;> rfl

theorem instrFields_of_decodeFloatFn {v : Bool} {fn : BitVec 4} {i : Instr} (h : decodeFloatFn fn = .ok i) :
    instrFields i = legalFields .float v fn := by
  unfold decodeFloatFn at h
  split at h <;> cases h
  rfl

/-- The float tier's code is the one that no other tier has (R61). -/
theorem float_code_eq : ∀ t : BitVec 2, t ≠ 0b00 → t ≠ 0b01 → t ≠ 0b10 → Tier.float.code = t := by
  decide

/-- The operation read from TIER and FN has the fields that TIER, V and FN give a legal command. -/
theorem instrFields_of_decodeTierFn {c : Cmd8} {i : Instr} (h : decodeTierFn c = .ok i) :
    ∃ tier : Tier, tier.code = c.tier ∧ instrFields i = legalFields tier (c.v == 1) c.fn := by
  unfold decodeTierFn at h
  split at h
  case h_1 ht => exact ⟨.byte, ht.symm, instrFields_of_decodeByteFn h⟩
  case h_2 ht => exact ⟨.word, ht.symm, instrFields_of_decodeWordFn h⟩
  case h_3 ht => exact ⟨.dword, ht.symm, instrFields_of_decodeDwordFn h⟩
  case h_4 h0 h1 h2 => exact ⟨.float, float_code_eq _ h0 h1 h2, instrFields_of_decodeFloatFn h⟩

/-- Fields that pass the checks of RSV and V are the legal fields of their tier, V and function: no bit is dropped. -/
theorem legalFields_eq {c : Cmd8} (hrsv : c.rsvClear = true) (hv : c.vAllowed = true) {tier : Tier}
    (ht : tier.code = c.tier) : legalFields tier (c.v == 1) c.fn = c := by
  obtain ⟨rsv, v, t, fn⟩ := c
  obtain rfl : tier.code = t := ht
  obtain rfl : rsv = 0 := by simpa [Cmd8.rsvClear] using hrsv
  have hfloat : tier.code = 0b11#2 ↔ tier = .float := by cases tier <;> decide
  by_cases hset : fn = 0x1 ∧ tier ≠ .float
  · have hbit : ∀ v : BitVec 1, (if v == 1 then 1 else 0) = v := by decide
    rw [legalFields, if_pos hset, setFields, hbit, hset.1]
  · have hv0 : v = 0 ∨ fn = 0x1 ∧ tier ≠ .float := by simpa [Cmd8.vAllowed, Cmd8.isSet, hfloat] using hv
    rw [legalFields, if_neg hset, plainFields, hv0.resolve_right hset]

/-- What the decoder accepts: RSV and V pass their checks, and TIER and FN name the operation (R69). -/
theorem decode_eq_ok_iff (c : BitVec 8) (i : Instr) :
    decode c = .ok i ↔
      (splitCmd c).rsvClear = true ∧ (splitCmd c).vAllowed = true ∧ decodeTierFn (splitCmd c) = .ok i := by
  cases hr : (splitCmd c).rsvClear <;> cases hv : (splitCmd c).vAllowed <;> simp [decode, hr, hv]

/-- Every word that decodes is the word of its instruction. -/
theorem encode_of_decode {c : BitVec 8} {i : Instr} (h : decode c = .ok i) : encode i = c := by
  obtain ⟨hrsv, hv, hfn⟩ := (decode_eq_ok_iff c i).mp h
  obtain ⟨tier, ht, hi⟩ := instrFields_of_decodeTierFn hfn
  rw [encode, hi, legalFields_eq hrsv hv ht, joinCmd_splitCmd]

/-! ### The rows of the opcode map -/

/-- V in its place, CMD[6] (R60). -/
def valueBit (v : Bool) : BitVec 8 := if v then 0x40 else 0

theorem valueBit_getLsbD (c : BitVec 8) : valueBit (c.getLsbD 6) = c &&& 0x40 := by
  revert c
  decide

/-- A row's word is its CMD value, with V at the bit its mask leaves free, if it leaves one (R68). -/
theorem encode_opcodeMap : ∀ row ∈ opcodeMap, ∀ v,
    encode (row.2.2 v) = row.1 ||| (valueBit v &&& ~~~row.2.1) := by
  decide

/-- No mask of the map leaves a bit other than CMD[6] free. -/
theorem opcodeMap_mask_free : ∀ row ∈ opcodeMap, 0x40 &&& ~~~row.2.1 = ~~~row.2.1 := by
  decide

/-- A word that matches a row is the word of the row's operation. -/
theorem encode_of_matches {c : BitVec 8} {row} (hrow : row ∈ opcodeMap) (hc : c &&& row.2.1 = row.1) :
    encode (row.2.2 (c.getLsbD 6)) = c :=
  calc encode (row.2.2 (c.getLsbD 6))
      = row.1 ||| (c &&& 0x40 &&& ~~~row.2.1) := by rw [encode_opcodeMap row hrow, valueBit_getLsbD]
    _ = (c &&& row.2.1) ||| (c &&& ~~~row.2.1) := by rw [BitVec.and_assoc, opcodeMap_mask_free row hrow, hc]
    _ = c := by
      ext j
      cases hj : row.2.1[j] <;> simp [hj]

/-- Every instruction's word matches a row of the map. -/
theorem exists_row_matches_encode (i : Instr) : ∃ row ∈ opcodeMap, encode i &&& row.2.1 = row.1 := by
  cases i with
  | setB v | setW v | setD v => cases v <;> decide
  | _ => decide

/-- The CMD values of two rows differ at a bit that both masks compare. -/
theorem opcodeMap_pairwise :
    opcodeMap.Pairwise (fun row row' => row.1 &&& row'.2.1 ≠ row'.1 &&& row.2.1) := by
  decide

/-- CMD values that one word matches agree at the bits that both masks compare. -/
theorem and_mask_eq_of_matches {c m m' x x' : BitVec 8} (h : c &&& m = x) (h' : c &&& m' = x') :
    x &&& m' = x' &&& m := by
  rw [← h, ← h', BitVec.and_assoc, BitVec.and_assoc, BitVec.and_comm m]

/-- No word matches two rows. -/
theorem opcodeMap_filter_ne_cons_cons (c : BitVec 8) (row row' rows) :
    opcodeMap.filter (fun row => c &&& row.2.1 == row.1) ≠ row :: row' :: rows := by
  intro hf
  have hpw := opcodeMap_pairwise.filter (fun row => c &&& row.2.1 == row.1)
  have hm : ∀ r ∈ row :: row' :: rows, c &&& r.2.1 = r.1 := by
    rw [← hf]
    exact fun r hr => eq_of_beq (List.mem_filter.mp hr).2
  rw [hf] at hpw
  exact List.rel_of_pairwise_cons hpw List.mem_cons_self
    (and_mask_eq_of_matches (hm row (by simp)) (hm row' (by simp)))

/-- The legal words, counted: 22 of the operations have one word and the three set operations two (R68). -/
theorem length_filter_decodeTableWord :
    ((List.range 256).filter (fun n => (decodeTableWord 8 n).isSome)).length = 28 := by
  decide

/-- Settles O46: a word that decodes is its instruction's and so matches a row; a word that matches a row is the word of
the row's operation and so decodes to it; and the rows exclude one another. -/
theorem decodeFollowsOpcodeMap : Obligations.DecodeFollowsOpcodeMap := by
  refine ⟨rfl, fun c => ?_, length_filter_decodeTableWord⟩
  split
  case h_1 hnone =>
    cases hd : decode c with
    | error why => exact ⟨why, rfl⟩
    | ok i =>
      obtain ⟨row, hrow, hm⟩ := exists_row_matches_encode i
      rw [encode_of_decode hd] at hm
      simpa [hm] using List.filter_eq_nil_iff.mp hnone row hrow
  case h_2 row hone =>
    have hmem : row ∈ opcodeMap.filter _ := hone ▸ List.mem_singleton_self row
    obtain ⟨hrow, hm⟩ := List.mem_filter.mp hmem
    have henc := encode_of_matches hrow (eq_of_beq hm)
    calc decode c = decode (encode (row.2.2 (c.getLsbD 6))) := by rw [henc]
      _ = .ok (row.2.2 (c.getLsbD 6)) := decode_encode _
  case h_3 hnil hone =>
    match hf : opcodeMap.filter (fun row => c &&& row.2.1 == row.1) with
    | [] => exact hnil hf
    | [row] => exact hone row hf
    | row :: row' :: rows => exact opcodeMap_filter_ne_cons_cons c row row' rows hf

end Sys2Proof.Machine
end

section
/-! SUPPORT. What the operations of a width tier compute, as one function of the operand's low bits and the reduced
index (30_encoding.md R65 to R67). The predicates take the width as a number, so that a law of the three tiers is
proved once. -/

namespace Sys2Proof.Machine

/-! ### Reading the ports -/

/-- The byte operand is the low 8 bits of the port (R65). -/
theorem byteOperand_eq_setWidth (p : DWord) : byteOperand p = p.setWidth 8 :=
  (BitVec.setWidth_eq_extractLsb' (by omega)).symm

/-- The word operand is the low 16 bits of the port (R65). -/
theorem wordOperand_eq_setWidth (p : DWord) : wordOperand p = p.setWidth 16 :=
  (BitVec.setWidth_eq_extractLsb' (by omega)).symm

/-- The byte in a port's low bits is read back, whatever stands above it (R25). -/
@[simp] theorem setWidth_byteIn (hi : BitVec 24) (v : Byte) : (byteIn hi v).setWidth 8 = v :=
  BitVec.setWidth_append_eq_right

/-- A narrow result on a port is read back as an operand of the same width (R25). -/
theorem setWidth_setWidth_port {w : Nat} (hw : w ≤ 32) (v : BitVec w) : (v.setWidth 32).setWidth w = v :=
  (BitVec.setWidth_setWidth_of_le v hw).trans (BitVec.setWidth_eq v)

/-- The low bits of a port, zero-extended, are its operand put back on a port (R25). -/
theorem setWidth_operand_eq_lowBits (w : Nat) (a : DWord) : (a.setWidth w).setWidth 32 = lowBits w a := by
  apply BitVec.eq_of_toNat_eq
  simp [lowBits]

/-- A narrow result on a port shows the result's own bits and zeros above them (R25). -/
theorem bitsOf_setWidth {w : Nat} {v : BitVec w} {f : Nat → Bool} (h : ∀ i, i < w → v.getLsbD i = f i) :
    BitsOf (v.setWidth 32) w f := by
  intro i hi
  rw [BitVec.getLsbD_setWidth]
  by_cases hw : i < w
  · rw [h i hw, decide_eq_true hi, decide_eq_true hw]
  · simp [hw, BitVec.getLsbD_of_ge v i (by omega)]

/-! ### Reduced indices -/

/-- The pattern of an integer `n` reduces at a width of 2^k to `n mod 2^k` (R67). -/
theorem idx_ofInt (n : Int) {k : Nat} (hk : k ≤ 32) :
    idx (2 ^ k) (BitVec.ofInt 32 n) = (n % ((2 ^ k : Nat) : Int)).toNat := by
  have hdvd : ((2 ^ k : Nat) : Int) ∣ ((2 ^ 32 : Nat) : Int) := Int.natCast_dvd_natCast.mpr (pow_dvd_pow 2 hk)
  rw [idx, BitVec.toInt_ofInt, ← Int.emod_emod_of_dvd _ hdvd, Int.bmod_emod, Int.emod_emod_of_dvd _ hdvd]

/-- Every multiple of 8, negative or not, is byte index or count 0 (R67). -/
theorem idx_ofInt_mul_eight (n : Int) : idx 8 (BitVec.ofInt 32 (8 * n)) = 0 := by
  have h : idx 8 (BitVec.ofInt 32 (8 * n)) = (8 * n % 8).toNat := idx_ofInt (8 * n) (k := 3) (by omega)
  rw [h, Int.mul_emod_right, Int.toNat_zero]

/-- The width itself reduces to 0 (R67). -/
theorem idx_width {n : Nat} (hn : n ≤ 32) : idx n (BitVec.ofNat 32 n) = 0 := by
  have hpat : (BitVec.ofNat 32 n).toNat = n := by rw [BitVec.toNat_ofNat, Nat.mod_eq_of_lt (by omega)]
  rw [idx, BitVec.toInt_eq_toNat_of_lt (by omega), hpat, Int.emod_self, Int.toNat_zero]

/-! ### What each operation computes -/

/-- The operation reads the low `w` bits of A, reduces B to an index of that width, and answers `f` of the two on Y. -/
def ComputesY (i : Instr) (w : Nat) (f : BitVec w → Nat → BitVec w) : Prop :=
  ∀ a b, Gives i a b (replyY ((f (a.setWidth w) (idx w b)).setWidth 32))

/-- The operation answers on T the bit of the low `w` bits of A that B names. -/
def ReadsBitT (i : Instr) (w : Nat) : Prop :=
  ∀ a b, Gives i a b (replyT ((a.setWidth w).getLsbD (idx w b)))

/-- What an operation gives for a result of its own width put back on port A. -/
theorem ComputesY.of_setWidth {i : Instr} {w : Nat} {f : BitVec w → Nat → BitVec w} (h : ComputesY i w f)
    (hw : w ≤ 32) (v : BitVec w) (b : DWord) :
    Gives i (v.setWidth 32) b (replyY ((f v (idx w b)).setWidth 32)) := by
  have hgives := h (v.setWidth 32) b
  rwa [setWidth_setWidth_port hw] at hgives

theorem getB_reads : ReadsBitT .getB 8 := fun a b =>
  gives_of_exec (by rw [exec_getB, byteOperand_eq_setWidth, getBit8_eq]; rfl)

theorem getW_reads : ReadsBitT .getW 16 := fun a b =>
  gives_of_exec (by rw [exec_getW, wordOperand_eq_setWidth, getBit16_eq]; rfl)

theorem getD_reads : ReadsBitT .getD 32 := fun a b =>
  gives_of_exec (by rw [exec_getD, getBit32_eq, BitVec.setWidth_eq]; rfl)

theorem setB_computes (x : Bool) : ComputesY (.setB x) 8 (setBit8 · · x) := fun a b =>
  gives_of_exec (by rw [exec_setB, byteOperand_eq_setWidth]; rfl)

theorem rolB_computes : ComputesY .rolB 8 rol8 := fun a b =>
  gives_of_exec (by rw [exec_rolB, byteOperand_eq_setWidth]; rfl)

theorem rorB_computes : ComputesY .rorB 8 ror8 := fun a b =>
  gives_of_exec (by rw [exec_rorB, byteOperand_eq_setWidth]; rfl)

theorem revB_computes : ComputesY .revB 8 (fun v _ => rev8 v) := fun a b =>
  gives_of_exec (by rw [exec_revB, byteOperand_eq_setWidth]; rfl)

theorem invB_computes : ComputesY .invB 8 (fun v _ => inv8 v) := fun a b =>
  gives_of_exec (by rw [exec_invB, byteOperand_eq_setWidth]; rfl)

theorem setW_computes (x : Bool) : ComputesY (.setW x) 16 (setBit16 · · x) := fun a b =>
  gives_of_exec (by rw [exec_setW, wordOperand_eq_setWidth]; rfl)

theorem rolW_computes : ComputesY .rolW 16 rol16 := fun a b =>
  gives_of_exec (by rw [exec_rolW, wordOperand_eq_setWidth]; rfl)

theorem rorW_computes : ComputesY .rorW 16 ror16 := fun a b =>
  gives_of_exec (by rw [exec_rorW, wordOperand_eq_setWidth]; rfl)

theorem revW_computes : ComputesY .revW 16 (fun v _ => rev16 v) := fun a b =>
  gives_of_exec (by rw [exec_revW, wordOperand_eq_setWidth]; rfl)

theorem invW_computes : ComputesY .invW 16 (fun v _ => inv16 v) := fun a b =>
  gives_of_exec (by rw [exec_invW, wordOperand_eq_setWidth]; rfl)

theorem setD_computes (x : Bool) : ComputesY (.setD x) 32 (setBit32 · · x) := fun a b =>
  gives_of_exec (by rw [exec_setD, BitVec.setWidth_eq, BitVec.setWidth_eq]; rfl)

theorem rolD_computes : ComputesY .rolD 32 rol32 := fun a b =>
  gives_of_exec (by rw [exec_rolD, BitVec.setWidth_eq, BitVec.setWidth_eq]; rfl)

theorem rorD_computes : ComputesY .rorD 32 ror32 := fun a b =>
  gives_of_exec (by rw [exec_rorD, BitVec.setWidth_eq, BitVec.setWidth_eq]; rfl)

theorem revD_computes : ComputesY .revD 32 (fun v _ => rev32 v) := fun a b =>
  gives_of_exec (by rw [exec_revD, BitVec.setWidth_eq, BitVec.setWidth_eq]; rfl)

theorem invD_computes : ComputesY .invD 32 (fun v _ => inv32 v) := fun a b =>
  gives_of_exec (by rw [exec_invD, BitVec.setWidth_eq, BitVec.setWidth_eq]; rfl)

end Sys2Proof.Machine
end

section
/-! SUPPORT. The laws that hold in every tier: get after set, rotate right after rotate left, reverse and invert twice
(40_byte.md R107 to R110, and the rules above them in the wider tiers). -/

namespace Sys2Proof.Machine

/-! ### Get after set -/

/-- `set` forces the indexed bit and keeps the others: `x with [j] := b` (R100). -/
def SetsBit {w : Nat} (set : BitVec w → Nat → Bool → BitVec w) : Prop :=
  ∀ x j b, j < w → ∀ i, (set x j b).getLsbD i = if i = j then b else x.getLsbD i

/-- Setting a bit to the value it has changes nothing (R102). -/
theorem SetsBit.self {w : Nat} {set : BitVec w → Nat → Bool → BitVec w} (hset : SetsBit set) (v : BitVec w) {j : Nat}
    (hj : j < w) : set v j (v.getLsbD j) = v := by
  apply BitVec.eq_of_getLsbD_eq
  intro i hi
  rw [hset v j _ hj]
  split_ifs with hij
  · rw [hij]
  · rfl

/-- A get and a set that act on single bits are consistent: the set bit reads as written, the others as before. -/
theorem getSetConsistent_of_setsBit {get : Instr} {setI : Bool → Instr} {w : Nat}
    {set : BitVec w → Nat → Bool → BitVec w} (hpos : 0 < w) (hw : w ≤ 32) (hget : ReadsBitT get w)
    (hsetI : ∀ x, ComputesY (setI x) w (set · · x)) (hset : SetsBit set) : GetSetConsistent get setI w := by
  intro a b x
  have hread : ∀ j, Gives get ((set (a.setWidth w) (idx w b) x).setWidth 32) j
      (replyT (if idx w j = idx w b then x else (a.setWidth w).getLsbD (idx w j))) := by
    intro j
    have h := hget ((set (a.setWidth w) (idx w b) x).setWidth 32) j
    rwa [setWidth_setWidth_port hw, hset _ _ _ (idx_lt w hpos b)] at h
  refine ⟨_, hsetI x a b, ?_, fun j hj => ⟨_, hget a j, ?_⟩⟩
  · have h := hread b
    rwa [if_pos rfl] at h
  · have hne : idx w j ≠ idx w b := hj
    have h := hread j
    rwa [if_neg hne] at h

/-- Settles O34: each tier's set is `x with [j] := b`, and its get reads the bit. -/
theorem getAfterSet : Obligations.GetAfterSet :=
  ⟨getSetConsistent_of_setsBit (by omega) (by omega) getB_reads setB_computes getLsbD_setBit8,
    getSetConsistent_of_setsBit (by omega) (by omega) getW_reads setW_computes getLsbD_setBit16,
    getSetConsistent_of_setsBit (by omega) (by omega) getD_reads setD_computes getLsbD_setBit32⟩

/-! ### Rotates -/

/-- Bit i of the result comes from k places below, around the end (R103). -/
def RotatesLeft {w : Nat} (rol : BitVec w → Nat → BitVec w) : Prop :=
  ∀ v k, k < w → ∀ i, i < w → (rol v k).getLsbD i = if i < k then v.getLsbD (w + i - k) else v.getLsbD (i - k)

/-- Bit i of the result comes from k places above, around the end (R104). -/
def RotatesRight {w : Nat} (ror : BitVec w → Nat → BitVec w) : Prop :=
  ∀ v k, k < w → ∀ i, i < w → (ror v k).getLsbD i = if i + k < w then v.getLsbD (i + k) else v.getLsbD (i + k - w)

theorem RotatesLeft.zero {w : Nat} {rol : BitVec w → Nat → BitVec w} (hl : RotatesLeft rol) (v : BitVec w) :
    rol v 0 = v := by
  apply BitVec.eq_of_getLsbD_eq
  intro i hi
  rw [hl v 0 (by omega) i hi, if_neg (by omega), Nat.sub_zero]

theorem RotatesRight.zero {w : Nat} {ror : BitVec w → Nat → BitVec w} (hr : RotatesRight ror) (v : BitVec w) :
    ror v 0 = v := by
  apply BitVec.eq_of_getLsbD_eq
  intro i hi
  rw [hr v 0 (by omega) i hi, Nat.add_zero, if_pos hi]

/-- The bit that moved k places up moves k places down again, whether or not it went around the end. -/
theorem RotatesRight.undo {w : Nat} {rol ror : BitVec w → Nat → BitVec w} (hr : RotatesRight ror)
    (hl : RotatesLeft rol) (v : BitVec w) {k : Nat} (hk : k < w) : ror (rol v k) k = v := by
  apply BitVec.eq_of_getLsbD_eq
  intro i hi
  rw [hr _ k hk i hi]
  split_ifs with hwrap
  · rw [hl v k hk _ hwrap, if_neg (by omega), Nat.add_sub_cancel]
  · rw [hl v k hk _ (by omega), if_pos (by omega)]
    congr 1
    omega

/-- Operations that rotate left and right by the reduced count undo each other, and the width reduces to count 0. -/
theorem rotateInverse_of_rotates {rolI rorI : Instr} {w : Nat} {rol ror : BitVec w → Nat → BitVec w} (hpos : 0 < w)
    (hw : w ≤ 32) (hrolI : ComputesY rolI w rol) (hrorI : ComputesY rorI w ror) (hl : RotatesLeft rol)
    (hr : RotatesRight ror) : RotateInverse rolI rorI w := by
  constructor
  · intro a k
    refine ⟨_, hrolI a k, ?_⟩
    have h := hrorI.of_setWidth hw (rol (a.setWidth w) (idx w k)) k
    rwa [hr.undo hl _ (idx_lt w hpos k), setWidth_operand_eq_lowBits] at h
  · intro a
    have h := hrolI a (BitVec.ofNat 32 w)
    rwa [idx_width hw, hl.zero, setWidth_operand_eq_lowBits] at h

/-- Settles O35: in each tier the rotates move every bit round the width, to the left and back. -/
theorem rotateRightUndoesRotateLeft : Obligations.RotateRightUndoesRotateLeft :=
  ⟨rotateInverse_of_rotates (by omega) (by omega) rolB_computes rorB_computes getLsbD_rol8 getLsbD_ror8,
    rotateInverse_of_rotates (by omega) (by omega) rolW_computes rorW_computes getLsbD_rol16 getLsbD_ror16,
    rotateInverse_of_rotates (by omega) (by omega) rolD_computes rorD_computes getLsbD_rol32 getLsbD_ror32⟩

/-! ### Reverse and invert -/

/-- A mirror of the width undoes itself: bit i goes to w-1-i and back. -/
theorem involutive_of_mirrors {w : Nat} {rev : BitVec w → BitVec w}
    (hrev : ∀ v i, i < w → (rev v).getLsbD i = v.getLsbD (w - 1 - i)) : Function.Involutive rev := by
  intro v
  apply BitVec.eq_of_getLsbD_eq
  intro i hi
  rw [hrev _ i hi, hrev v _ (by omega)]
  congr 1
  omega

/-- The complement undoes itself. -/
theorem involutive_of_eq_not {w : Nat} {inv : BitVec w → BitVec w} (hinv : ∀ v, inv v = ~~~v) :
    Function.Involutive inv := by
  intro v
  rw [hinv, hinv, BitVec.not_not]

/-- An operation that computes an involution of A's low bits undoes itself, whatever B holds. -/
theorem involution_of_involutive {op : Instr} {w : Nat} {f : BitVec w → BitVec w} (hw : w ≤ 32)
    (hop : ComputesY op w (fun v _ => f v)) (hf : Function.Involutive f) : Involution op w := by
  intro a b b'
  refine ⟨_, hop a b, ?_⟩
  have h : Gives op _ b' (replyY ((f (f (a.setWidth w))).setWidth 32)) := hop.of_setWidth hw _ b'
  rwa [hf, setWidth_operand_eq_lowBits] at h

/-- Settles O36: reverse is the mirror of the width and invert the complement, in each tier. -/
theorem reverseAndInvertAreInvolutions : Obligations.ReverseAndInvertAreInvolutions :=
  ⟨involution_of_involutive (by omega) revB_computes (involutive_of_mirrors getLsbD_rev8),
    involution_of_involutive (by omega) revW_computes (involutive_of_mirrors getLsbD_rev16),
    involution_of_involutive (by omega) revD_computes (involutive_of_mirrors getLsbD_rev32),
    involution_of_involutive (by omega) invB_computes (involutive_of_eq_not inv8_eq),
    involution_of_involutive (by omega) invW_computes (involutive_of_eq_not inv16_eq),
    involution_of_involutive (by omega) invD_computes (involutive_of_eq_not inv32_eq)⟩

end Sys2Proof.Machine
end

section
/-! SUPPORT. The results of the byte tier (40_byte.md R101 to R106). -/

namespace Sys2Proof.Machine

/-- What an operation gives for a byte on port A, whatever stands above the byte. -/
theorem ComputesY.of_byteIn {i : Instr} {f : Byte → Nat → Byte} (h : ComputesY i 8 f) (hi : BitVec 24) (v : Byte)
    (b : DWord) : Gives i (byteIn hi v) b (replyY ((f v (idx 8 b)).setWidth 32)) := by
  have hgives := h (byteIn hi v) b
  rwa [setWidth_byteIn] at hgives

/-- get.b gives the bit B names of a byte on port A, whatever stands above the byte (R101). -/
theorem gives_getB_byteIn (hi : BitVec 24) (v : Byte) (b : DWord) :
    Gives .getB (byteIn hi v) b (replyT (v.getLsbD (idx 8 b))) := by
  have hgives := getB_reads (byteIn hi v) b
  rwa [setWidth_byteIn] at hgives

/-- Settles O1: get.b reads the bit B names of the byte. -/
theorem getByteReadsIndexedBit : Obligations.GetByteReadsIndexedBit :=
  ⟨rfl, gives_getB_byteIn,
    fun hi v => ⟨gives_getB_byteIn hi v 8, gives_getB_byteIn hi v 0xFFFFFFFF, gives_getB_byteIn hi v 0x80000000⟩,
    getB_reads 189 7⟩

/-- Settles O2: `getLsbD_setBit8` says what setting a bit does to every bit. -/
theorem setByteForcesIndexedBit : Obligations.SetByteForcesIndexedBit := by
  refine ⟨rfl, rfl, fun hi v b x => ⟨_, (setB_computes x).of_byteIn hi v b, ?_⟩, fun hi v b => ?_,
    fun hi v => (setB_computes true).of_byteIn hi v 0xFFFFFFFF, setB_computes true 52 7⟩
  · exact bitsOf_setWidth fun i _ => getLsbD_setBit8 v _ x (idx_lt 8 (by omega) b) i
  · have h := (setB_computes (v.getLsbD (idx 8 b))).of_byteIn hi v b
    rwa [SetsBit.self getLsbD_setBit8 v (idx_lt 8 (by omega) b)] at h

/-- Settles O3: the model's rotate is the rule's pseudocode, and a multiple of 8 reduces to count 0. -/
theorem rotateLeftByteResult : Obligations.RotateLeftByteResult := by
  refine ⟨rfl, fun hi v b => ⟨_, rolB_computes.of_byteIn hi v b, rfl⟩, fun hi v n => ?_, rolB_computes 240 5⟩
  have h := rolB_computes.of_byteIn hi v (BitVec.ofInt 32 (8 * n))
  rwa [idx_ofInt_mul_eight, RotatesLeft.zero getLsbD_rol8] at h

/-- Settles O4: the model's rotate is the rule's pseudocode, and a multiple of 8 reduces to count 0. -/
theorem rotateRightByteResult : Obligations.RotateRightByteResult := by
  refine ⟨rfl, fun hi v b => ⟨_, rorB_computes.of_byteIn hi v b, rfl⟩, fun hi v n => ?_, rorB_computes 240 5⟩
  have h := rorB_computes.of_byteIn hi v (BitVec.ofInt 32 (8 * n))
  rwa [idx_ofInt_mul_eight, RotatesRight.zero getLsbD_ror8] at h

/-- The palindromes that R105 lists are fixed by the reverse. -/
theorem rev8_palindromes :
    ∀ v ∈ [0x00#8, 0xFF#8, 0x81#8, 0x3C#8, 0x5A#8, 0xA5#8, 0x18#8, 0xE7#8], rev8 v = v := by
  decide

/-- Settles O5: `getLsbD_rev8` is the mirror bit by bit. -/
theorem reverseByteResult : Obligations.ReverseByteResult := by
  refine ⟨rfl, fun hi v b => ⟨_, revB_computes.of_byteIn hi v b, bitsOf_setWidth (getLsbD_rev8 v)⟩,
    fun v hv hi b => ?_, revB_computes 1 0⟩
  have h := revB_computes.of_byteIn hi v b
  rwa [rev8_palindromes v hv] at h

/-- inv.b gives the complement of the byte. -/
theorem gives_invB_byteIn (hi : BitVec 24) (v : Byte) (b : DWord) :
    Gives .invB (byteIn hi v) b (replyY ((~~~v).setWidth 32)) := by
  have h := invB_computes.of_byteIn hi v b
  rwa [inv8_eq] at h

/-- Settles O6: the inverted byte is the complement, bit by bit. -/
theorem invertByteResult : Obligations.InvertByteResult := by
  refine ⟨rfl, fun hi v b => ⟨gives_invB_byteIn hi v b, bitsOf_setWidth fun i hi8 => ?_⟩,
    fun hi b => ⟨gives_invB_byteIn hi 0x00 b, gives_invB_byteIn hi 0xFF b⟩, invB_computes 0x35 0⟩
  simp [hi8]

end Sys2Proof.Machine
end

section
/-! SUPPORT. What the results of the wider tiers need at any width: the one response an operation gives, values on a
port below anything, negated counts, and the rotates against each other (30_encoding.md R65 to R67, R133, R134). -/

namespace Sys2Proof.Machine

/-! ### One response -/

/-- An operation gives no other response than the one it gives (R23). -/
theorem Gives.unique {i : Instr} {a b : DWord} {r r' : Response} (h : Gives i a b r) (h' : Gives i a b r') :
    r = r' := by
  have heq := (h ⟨none, a, b, none⟩ rfl rfl).symm.trans (h' ⟨none, a, b, none⟩ rfl rfl)
  simpa using heq

/-- Two commands with one response give the same (R23). -/
theorem Gives.iff_of_same {i i' : Instr} {a a' b b' : DWord} {r : Response} (h : Gives i a b r)
    (h' : Gives i' a' b' r) (x : Response) : Gives i a b x ↔ Gives i' a' b' x :=
  ⟨fun hx => h.unique hx ▸ h', fun hx => h'.unique hx ▸ h⟩

/-! ### Values in the low bits of a port -/

/-- The word in a port's low bits is read back, whatever stands above it (R25). -/
@[simp] theorem setWidth_wordIn (hi : BitVec 16) (v : Word) : (wordIn hi v).setWidth 16 = v :=
  BitVec.setWidth_append_eq_right

/-- A value put together from two halves is, on a port, the high half shifted up over the low one (R41). -/
theorem setWidth_append_eq_shift_or {m n : Nat} (hmn : m + n ≤ 32) (h : BitVec m) (l : BitVec n) :
    (h ++ l).setWidth 32 = (h.setWidth 32 <<< n) ||| l.setWidth 32 := by
  apply BitVec.eq_of_getLsbD_eq
  intro i hi
  simp only [BitVec.getLsbD_setWidth, BitVec.getLsbD_append, BitVec.getLsbD_or, BitVec.getLsbD_shiftLeft]
  by_cases hin : i < n
  · simp [hin, hi]
  · simp [hin, hi, show i - n < 32 by omega, BitVec.getLsbD_of_ge l i (by omega)]

/-! ### Reduced indices -/

/-- Every multiple of the width, negative or not, is index or count 0 (R67). -/
theorem idx_ofInt_mul_two_pow (n : Int) {k : Nat} (hk : k ≤ 32) :
    idx (2 ^ k) (BitVec.ofInt 32 (((2 ^ k : Nat) : Int) * n)) = 0 := by
  rw [idx_ofInt _ hk, Int.mul_emod_right, Int.toNat_zero]

/-- The negated count reduces to what is left of the width (R67). -/
theorem idx_neg (b : DWord) {k : Nat} (hk : k ≤ 32) :
    idx (2 ^ k) (-b) = (2 ^ k - idx (2 ^ k) b) % 2 ^ k := by
  have hpos : 0 < 2 ^ k := Nat.two_pow_pos k
  have hlt := idx_lt (2 ^ k) hpos b
  have hcast : ((idx (2 ^ k) b : Nat) : Int) = b.toInt % ((2 ^ k : Nat) : Int) :=
    Int.toNat_of_nonneg (Int.emod_nonneg _ (by omega))
  have hneg : -b = BitVec.ofInt 32 (-b.toInt) := by rw [BitVec.ofInt_neg, BitVec.ofInt_toInt]
  have hmod : -b.toInt % ((2 ^ k : Nat) : Int) = (((2 ^ k - idx (2 ^ k) b) % 2 ^ k : Nat) : Int) := by
    rw [Int.natCast_emod, Int.natCast_sub hlt.le, hcast, Int.sub_emod_emod, Int.sub_emod_left]
  rw [hneg, idx_ofInt _ hk, hmod, Int.toNat_natCast]

/-! ### Set, rotate and mirror -/

/-- Setting a bit to 1 is the OR with that bit alone (R102). -/
theorem SetsBit.true_eq_or {w : Nat} {set : BitVec w → Nat → Bool → BitVec w} (hset : SetsBit set) (v : BitVec w)
    {j : Nat} (hj : j < w) : set v j true = v ||| BitVec.twoPow w j := by
  apply BitVec.eq_of_getLsbD_eq
  intro i _
  rw [hset v j true hj, BitVec.getLsbD_or, BitVec.getLsbD_twoPow, decide_eq_true hj]
  by_cases hij : i = j
  · simp [hij]
  · simp [hij, Ne.symm hij]

/-- Rotating left by what is left of the width is rotating right (R134). -/
theorem RotatesLeft.eq_right {w : Nat} {rol ror : BitVec w → Nat → BitVec w} (hl : RotatesLeft rol)
    (hr : RotatesRight ror) (v : BitVec w) {k : Nat} (hk : k < w) : rol v ((w - k) % w) = ror v k := by
  rcases Nat.eq_zero_or_pos k with rfl | hpos
  · rw [Nat.sub_zero, Nat.mod_self, hl.zero, hr.zero]
  · rw [Nat.mod_eq_of_lt (by omega)]
    apply BitVec.eq_of_getLsbD_eq
    intro i hi
    rw [hl v _ (by omega) i hi, hr v k hk i hi]
    by_cases hwrap : i + k < w
    · rw [if_pos (by omega), if_pos hwrap, show w + i - (w - k) = i + k by omega]
    · rw [if_neg (by omega), if_neg hwrap, show i - (w - k) = i + k - w by omega]

/-- A left rotate by what the right rotate's count leaves of the width gives what the right rotate gives. -/
theorem gives_rol_iff_gives_ror {rolI rorI : Instr} {w : Nat} {rol ror : BitVec w → Nat → BitVec w} (hpos : 0 < w)
    (hrolI : ComputesY rolI w rol) (hrorI : ComputesY rorI w ror) (hl : RotatesLeft rol) (hr : RotatesRight ror)
    (a : DWord) {b b' : DWord} (hb : idx w b' = (w - idx w b) % w) (r : Response) :
    Gives rolI a b' r ↔ Gives rorI a b r := by
  have h := hrolI a b'
  rw [hb, hl.eq_right hr _ (idx_lt w hpos b)] at h
  exact h.iff_of_same (hrorI a b) r

/-- A palindrome is fixed by the mirror of its width (R105). -/
theorem mirror_eq_self {w : Nat} {rev : BitVec w → BitVec w}
    (hrev : ∀ v i, i < w → (rev v).getLsbD i = v.getLsbD (w - 1 - i)) {v : BitVec w}
    (hv : ∀ i, i < w → v.getLsbD (w - 1 - i) = v.getLsbD i) : rev v = v :=
  BitVec.eq_of_getLsbD_eq fun i hi => (hrev v i hi).trans (hv i hi)

end Sys2Proof.Machine
end

section
/-! SUPPORT. Compose and decompose undo each other (20_memory.md R41, 41_word.md R140, 42_dword.md R180). -/

namespace Sys2Proof.Machine

/-! ### As functions -/

theorem composeWord_highByte_lowByte (w : Word) : composeWord (highByte w) (lowByte w) = w :=
  (BitVec.extractLsb'_append_extractLsb'_eq_extractLsb' rfl).trans BitVec.extractLsb'_eq_self

theorem composeDoubleWord_highWord_lowWord (d : DWord) : composeDoubleWord (highWord d) (lowWord d) = d :=
  (BitVec.extractLsb'_append_extractLsb'_eq_extractLsb' rfl).trans BitVec.extractLsb'_eq_self

/-! ### As commands -/

/-- The operation composes the low `h` bits of A and of B and answers the value on Y. -/
def ComposesY (i : Instr) (n h : Nat) (compose : BitVec h → BitVec h → BitVec n) : Prop :=
  ∀ a b, Gives i a b (replyY ((compose (a.setWidth h) (b.setWidth h)).setWidth 32))

/-- The operation answers the high half of the low `n` bits of A on Y and the low half on Z. -/
def DecomposesYZ (i : Instr) (n h : Nat) (high low : BitVec n → BitVec h) : Prop :=
  ∀ a b, Gives i a b (replyYZ ((high (a.setWidth n)).setWidth 32) ((low (a.setWidth n)).setWidth 32))

theorem composeW_composes : ComposesY .composeW 16 8 composeWord := fun a b =>
  gives_of_exec (by rw [exec_composeW, byteOperand_eq_setWidth, byteOperand_eq_setWidth]; rfl)

theorem decomposeW_decomposes : DecomposesYZ .decomposeW 16 8 highByte lowByte := fun a b =>
  gives_of_exec (by rw [exec_decomposeW, wordOperand_eq_setWidth]; rfl)

theorem composeD_composes : ComposesY .composeD 32 16 composeDoubleWord := fun a b =>
  gives_of_exec (by rw [exec_composeD, wordOperand_eq_setWidth, wordOperand_eq_setWidth, BitVec.setWidth_eq]; rfl)

theorem decomposeD_decomposes : DecomposesYZ .decomposeD 32 16 highWord lowWord := fun a b =>
  gives_of_exec (by rw [exec_decomposeD, BitVec.setWidth_eq]; rfl)

/-- Operations that compose and take apart the same halves undo each other, because each port gives back the half that
stands on it. -/
theorem roundTrip_of_inverse {composeI decomposeI : Instr} {n h : Nat} {compose : BitVec h → BitVec h → BitVec n}
    {high low : BitVec n → BitVec h} (hn : n ≤ 32) (hh : h ≤ 32) (hc : ComposesY composeI n h compose)
    (hd : DecomposesYZ decomposeI n h high low) (hback : ∀ v, compose (high v) (low v) = v)
    (hhigh : ∀ x y, high (compose x y) = x) (hlow : ∀ x y, low (compose x y) = y) :
    RoundTrip composeI decomposeI n h := by
  constructor
  · intro a b
    refine ⟨_, _, hd a b, ?_⟩
    have hcompose := hc ((high (a.setWidth n)).setWidth 32) ((low (a.setWidth n)).setWidth 32)
    rwa [setWidth_setWidth_port hh, setWidth_setWidth_port hh, hback, setWidth_operand_eq_lowBits] at hcompose
  · intro a b b'
    refine ⟨_, hc a b, ?_⟩
    have hdecompose := hd ((compose (a.setWidth h) (b.setWidth h)).setWidth 32) b'
    rwa [setWidth_setWidth_port hn, hhigh, hlow, setWidth_operand_eq_lowBits, setWidth_operand_eq_lowBits]
      at hdecompose

/-- Settles O38: the functions are inverse in both tiers, and the commands compute them. -/
theorem composeDecomposeRoundTrip : Obligations.ComposeDecomposeRoundTrip :=
  ⟨composeWord_highByte_lowByte, composeDoubleWord_highWord_lowWord,
    roundTrip_of_inverse (by omega) (by omega) composeW_composes decomposeW_decomposes composeWord_highByte_lowByte
      highByte_composeWord lowByte_composeWord,
    roundTrip_of_inverse (by omega) (by omega) composeD_composes decomposeD_decomposes
      composeDoubleWord_highWord_lowWord highWord_composeDoubleWord lowWord_composeDoubleWord⟩

end Sys2Proof.Machine
end

section
/-! SUPPORT. The results of the word tier (41_word.md R131 to R139). -/

namespace Sys2Proof.Machine

/-- What an operation gives for a word on port A, whatever stands above the word. -/
theorem ComputesY.of_wordIn {i : Instr} {f : Word → Nat → Word} (h : ComputesY i 16 f) (hi : BitVec 16) (v : Word)
    (b : DWord) : Gives i (wordIn hi v) b (replyY ((f v (idx 16 b)).setWidth 32)) := by
  have hgives := h (wordIn hi v) b
  rwa [setWidth_wordIn] at hgives

/-- A composed word on a port is the high byte shifted up over the low one (R41). -/
theorem setWidth_composeWord (h l : Byte) :
    (composeWord h l).setWidth 32 = (h.setWidth 32 <<< 8) ||| l.setWidth 32 :=
  setWidth_append_eq_shift_or (by omega) h l

/-! ### Get and set -/

/-- get.w gives the bit B names of a word on port A, whatever stands above the word (R131). -/
theorem gives_getW_wordIn (hi : BitVec 16) (v : Word) (b : DWord) :
    Gives .getW (wordIn hi v) b (replyT (v.getLsbD (idx 16 b))) := by
  have hgives := getW_reads (wordIn hi v) b
  rwa [setWidth_wordIn] at hgives

/-- Settles O7: get.w reads the bit of the word, which is that of the half that holds it. -/
theorem getWordReadsIndexedBit : Obligations.GetWordReadsIndexedBit := by
  refine ⟨rfl, fun hi v b => ⟨_, gives_getW_wordIn hi v b, (getBit16_eq v _).symm⟩, fun hi v => ⟨?_, ?_, ?_, ?_⟩,
    getW_reads 0x0100 8⟩
  · have hmsb : (v.extractLsb' 0 8).msb = v.getLsbD 7 := by simp [BitVec.msb_eq_getLsbD_last]
    rw [hmsb]
    exact gives_getW_wordIn hi v 7
  · have hlsb : (v.extractLsb' 8 8).getLsbD 0 = v.getLsbD 8 := by simp
    rw [hlsb]
    exact gives_getW_wordIn hi v 8
  · exact gives_getW_wordIn hi v 16
  · exact gives_getW_wordIn hi v 0xFFFFFFFF

theorem setBit16_of_ge (v : Word) {j : Nat} (hj : j ≥ 8) (x : Bool) :
    setBit16 v j x = composeWord (setBit8 (highByte v) (j - 8) x) (lowByte v) :=
  if_pos hj

theorem setBit16_of_lt (v : Word) {j : Nat} (hj : ¬ j ≥ 8) (x : Bool) :
    setBit16 v j x = composeWord (highByte v) (setBit8 (lowByte v) j x) :=
  if_neg hj

/-- Settles O8: the half B names is the byte tier's set of it, and the other half is the word's. -/
theorem setWordForcesIndexedBit : Obligations.SetWordForcesIndexedBit := by
  refine ⟨rfl, rfl, fun hi v b x => ⟨_, (setW_computes x).of_wordIn hi v b, ?_⟩, fun hi v b => ?_, fun hi v => ?_,
    setW_computes true 0 15⟩
  · have hlt : reduced 16 b < 16 := idx_lt 16 (by omega) b
    split_ifs with hk
    · exact ⟨setBit8 (highByte v) (reduced 16 b - 8) x, congrArg _ (setBit16_of_ge v hk x),
        fun i _ => getLsbD_setBit8 _ _ x (by omega) i⟩
    · exact ⟨setBit8 (lowByte v) (reduced 16 b) x, congrArg _ (setBit16_of_lt v hk x),
        fun i _ => getLsbD_setBit8 _ _ x (by omega) i⟩
  · have h := (setW_computes (v.getLsbD (idx 16 b))).of_wordIn hi v b
    rwa [SetsBit.self getLsbD_setBit16 v (idx_lt 16 (by omega) b)] at h
  · have hidx : idx 16 0xFFFFFFFF = 15 := rfl
    have h := (setW_computes true).of_wordIn hi v 0xFFFFFFFF
    rwa [hidx, SetsBit.true_eq_or getLsbD_setBit16 v (by omega)] at h

/-! ### Rotates -/

/-- A word rotate by a multiple of 16 gives the word (R133, R134). -/
theorem ComputesY.of_mul_sixteen {i : Instr} {f : Word → Nat → Word} (h : ComputesY i 16 f) (hf : ∀ v, f v 0 = v)
    (hi : BitVec 16) (v : Word) (n : Int) :
    Gives i (wordIn hi v) (BitVec.ofInt 32 (16 * n)) (replyY (v.setWidth 32)) := by
  have hidx : idx 16 (BitVec.ofInt 32 (16 * n)) = 0 := idx_ofInt_mul_two_pow n (k := 4) (by omega)
  have hgives := h.of_wordIn hi v (BitVec.ofInt 32 (16 * n))
  rwa [hidx, hf] at hgives

/-- Settles O9: the model's rotate is the rule's pseudocode, and the negated count is what is left of 16. -/
theorem rotateLeftWordResult : Obligations.RotateLeftWordResult :=
  ⟨rfl, fun hi v b => ⟨_, rolW_computes.of_wordIn hi v b, rfl⟩,
    rolW_computes.of_mul_sixteen (RotatesLeft.zero getLsbD_rol16),
    fun a b => gives_rol_iff_gives_ror (by omega) rolW_computes rorW_computes getLsbD_rol16 getLsbD_ror16 a
      (idx_neg b (k := 4) (by omega)),
    rolW_computes 0x8001 1⟩

/-- Settles O10: the model's rotate is the rule's pseudocode, and the counts k and (16 - k) mod 16 are their own
reductions. -/
theorem rotateRightWordResult : Obligations.RotateRightWordResult := by
  refine ⟨rfl, fun hi v b => ⟨_, rorW_computes.of_wordIn hi v b, rfl⟩,
    rorW_computes.of_mul_sixteen (RotatesRight.zero getLsbD_ror16), fun a k r => ?_, rorW_computes 0x8001 1⟩
  have hidx : idx 16 (BitVec.ofNat 32 ((16 - k.val) % 16)) = (16 - idx 16 (BitVec.ofNat 32 k.val)) % 16 := by
    rw [idx_ofNat_of_lt k.isLt (by omega), idx_ofNat_of_lt (Nat.mod_lt _ (by omega)) (by omega)]
  exact (gives_rol_iff_gives_ror (by omega) rolW_computes rorW_computes getLsbD_rol16 getLsbD_ror16 a hidx r).symm

/-! ### Reverse and invert -/

/-- The words that R135 lists are palindromes. -/
theorem rev16_palindromes : ∀ v ∈ [0x0000#16, 0xFFFF#16, 0x8001#16], rev16 v = v := by
  have hpal : ∀ v ∈ [0x0000#16, 0xFFFF#16, 0x8001#16], ∀ i < 16, v.getLsbD (15 - i) = v.getLsbD i := by
    simp only [List.forall_mem_cons, List.not_mem_nil, false_implies, implies_true, and_true]
    decide
  exact fun v hv => mirror_eq_self getLsbD_rev16 (hpal v hv)

/-- Settles O11: `getLsbD_rev16` is the mirror bit by bit, and what rev.w 1 gives is its only response. -/
theorem reverseWordResult : Obligations.ReverseWordResult := by
  have hone : Gives .revW 1 0 (replyY 0x8000) := revW_computes 1 0
  refine ⟨rfl, fun hi v b => ⟨_, revW_computes.of_wordIn hi v b, bitsOf_setWidth (getLsbD_rev16 v)⟩,
    fun v hv hi b => ?_, hone, fun h => absurd (hone.unique h) (by decide)⟩
  have h := revW_computes.of_wordIn hi v b
  rwa [rev16_palindromes v hv] at h

/-- Settles O12: the inverts of the halves, put together, are the model's invert of the word, which is the
complement. -/
theorem invertWordResult : Obligations.InvertWordResult := by
  refine ⟨rfl, fun hi v b => ?_, fun hi b => ?_, invW_computes 0x00FF 0⟩
  · have hhalves : ((inv8 (highByte v)).setWidth 32 <<< 8) ||| (inv8 (lowByte v)).setWidth 32 =
        (inv16 v).setWidth 32 := (setWidth_composeWord _ _).symm
    refine ⟨_, _, invB_computes.of_setWidth (by omega) (lowByte v) b,
      invB_computes.of_setWidth (by omega) (highByte v) b, ?_, ?_⟩
    · rw [hhalves]
      exact invW_computes.of_wordIn hi v b
    · rw [hhalves, inv16_eq]
  · have h := invW_computes.of_wordIn hi 0 b
    rwa [inv16_eq] at h

/-! ### Compose, decompose and swap -/

/-- Settles O13: the composed word on a port is the shifted high byte over the low byte, and both are read back. -/
theorem composeWordResult : Obligations.ComposeWordResult := by
  refine ⟨rfl, fun ha hb h l => ⟨_, ?_, setWidth_composeWord h l, extractHigh_composeWord h l,
    extractLow_composeWord h l⟩, composeW_composes 0x1FF 0x2FF, composeW_composes 0xAB 0xCD⟩
  have hgives := composeW_composes (byteIn ha h) (byteIn hb l)
  rwa [setWidth_byteIn, setWidth_byteIn] at hgives

/-- Settles O14: decompose.w answers the two halves of the word on port A. -/
theorem decomposeWordResult : Obligations.DecomposeWordResult := by
  refine ⟨rfl, fun hi v b => ?_, decomposeW_decomposes 0xABCD 0⟩
  have hgives := decomposeW_decomposes (wordIn hi v) b
  rwa [setWidth_wordIn] at hgives

theorem swapW_computes : ComputesY .swapW 16 (fun v _ => swap16 v) := fun a b =>
  gives_of_exec (by rw [exec_swapW, wordOperand_eq_setWidth]; rfl)

theorem swap16_composeWord (h l : Byte) : swap16 (composeWord h l) = composeWord l h := by
  rw [swap16, lowByte_composeWord, highByte_composeWord]

/-- swap.w exchanges the two bytes of a word on port A (R139). -/
theorem gives_swapW_wordIn (hi : BitVec 16) (h l : Byte) (b : DWord) :
    Gives .swapW (wordIn hi (composeWord h l)) b (replyY ((l.setWidth 32 <<< 8) ||| h.setWidth 32)) := by
  have hgives := swapW_computes.of_wordIn hi (composeWord h l) b
  rwa [swap16_composeWord, setWidth_composeWord] at hgives

/-- Settles O15: the bytes are exchanged, and equal bytes are the case h = l. -/
theorem swapWordResult : Obligations.SwapWordResult :=
  ⟨rfl, gives_swapW_wordIn, fun hi h b => gives_swapW_wordIn hi h h b, swapW_computes 0xABCD 0⟩

end Sys2Proof.Machine
end

section
/-! SUPPORT. The results of the double-word tier (42_dword.md R171 to R179). -/

namespace Sys2Proof.Machine

/-- What an operation gives for a double-word, which is all of port A and all of port Y (R170). -/
theorem ComputesY.of_dword {i : Instr} {f : DWord → Nat → DWord} (h : ComputesY i 32 f) (v b : DWord) :
    Gives i v b (replyY (f v (idx 32 b))) := by
  have hgives := h v b
  rwa [BitVec.setWidth_eq, BitVec.setWidth_eq] at hgives

/-- A composed double-word is the high word shifted up over the low one (R170). -/
theorem composeDoubleWord_eq_shift_or (h l : Word) :
    composeDoubleWord h l = (h.setWidth 32 <<< 16) ||| l.setWidth 32 :=
  (BitVec.setWidth_eq _).symm.trans (setWidth_append_eq_shift_or (by omega) h l)

/-! ### Get and set -/

/-- get.d gives the bit B names of A (R171). -/
theorem gives_getD (v b : DWord) : Gives .getD v b (replyT (v.getLsbD (idx 32 b))) := by
  have hgives := getD_reads v b
  rwa [BitVec.setWidth_eq] at hgives

/-- A bit of a double-word is the bit of the half that holds it (R171). -/
theorem getLsbD_eq_half (v : DWord) (j : Nat) :
    v.getLsbD j = if j ≥ 16 then (highWord v).getLsbD (j - 16) else (lowWord v).getLsbD j := by
  rw [← getBit32_eq, getBit32, getBit16_eq, getBit16_eq]

/-- Settles O16: get.d reads the bit of the double-word, which is that of the half that holds it. -/
theorem getDwordReadsIndexedBit : Obligations.GetDwordReadsIndexedBit := by
  refine ⟨rfl, fun v b => ⟨_, gives_getD v b, getLsbD_eq_half v _⟩, fun v => ⟨?_, ?_, ?_, ?_, ?_⟩,
    gives_getD 0x80000000 31⟩
  · have hmsb : (v.extractLsb' 0 16).msb = v.getLsbD 15 := by simp [BitVec.msb_eq_getLsbD_last]
    rw [hmsb]
    exact gives_getD v 15
  · have hlsb : (v.extractLsb' 16 16).getLsbD 0 = v.getLsbD 16 := by simp
    rw [hlsb]
    exact gives_getD v 16
  · exact gives_getD v 32
  · exact gives_getD v 0xFFFFFFFF
  · exact gives_getD v 0x80000000

theorem setBit32_of_ge (v : DWord) {j : Nat} (hj : j ≥ 16) (x : Bool) :
    setBit32 v j x = composeDoubleWord (setBit16 (highWord v) (j - 16) x) (lowWord v) :=
  if_pos hj

theorem setBit32_of_lt (v : DWord) {j : Nat} (hj : ¬ j ≥ 16) (x : Bool) :
    setBit32 v j x = composeDoubleWord (highWord v) (setBit16 (lowWord v) j x) :=
  if_neg hj

/-- Setting a bit to 0 is the AND with every bit but that one (R102). -/
theorem SetsBit.false_eq_and {w : Nat} {set : BitVec w → Nat → Bool → BitVec w} (hset : SetsBit set) (v : BitVec w)
    {j : Nat} (hj : j < w) : set v j false = v &&& ~~~BitVec.twoPow w j := by
  apply BitVec.eq_of_getLsbD_eq
  intro i hi
  rw [hset v j false hj, BitVec.getLsbD_and, BitVec.getLsbD_not, BitVec.getLsbD_twoPow, decide_eq_true hj]
  by_cases hij : i = j
  · simp [hij]
  · simp [hij, hi, Ne.symm hij]

/-- Settles O17: the half B names is the word tier's set of it, and the other half is the double-word's. -/
theorem setDwordForcesIndexedBit : Obligations.SetDwordForcesIndexedBit := by
  refine ⟨rfl, rfl, fun v b x => ⟨_, (setD_computes x).of_dword v b, ?_⟩, fun v b => ?_, fun v => ?_,
    setD_computes false 0xFFFFFFFF 16⟩
  · have hlt : reduced 32 b < 32 := idx_lt 32 (by omega) b
    split_ifs with hk
    · exact ⟨setBit16 (highWord v) (reduced 32 b - 16) x, setBit32_of_ge v hk x,
        fun i _ => getLsbD_setBit16 _ _ x (by omega) i⟩
    · exact ⟨setBit16 (lowWord v) (reduced 32 b) x, setBit32_of_lt v hk x,
        fun i _ => getLsbD_setBit16 _ _ x (by omega) i⟩
  · have h := (setD_computes (v.getLsbD (idx 32 b))).of_dword v b
    rwa [SetsBit.self getLsbD_setBit32 v (idx_lt 32 (by omega) b)] at h
  · have hidx : idx 32 0xFFFFFFFF = 31 := rfl
    have h := (setD_computes false).of_dword v 0xFFFFFFFF
    rwa [hidx, SetsBit.false_eq_and getLsbD_setBit32 v (by omega)] at h

/-! ### Rotates -/

/-- A double-word rotate by a multiple of 32 gives the double-word (R173, R174). -/
theorem ComputesY.of_mul_thirtyTwo {i : Instr} {f : DWord → Nat → DWord} (h : ComputesY i 32 f)
    (hf : ∀ v, f v 0 = v) (v : DWord) (n : Int) : Gives i v (BitVec.ofInt 32 (32 * n)) (replyY v) := by
  have hidx : idx 32 (BitVec.ofInt 32 (32 * n)) = 0 := idx_ofInt_mul_two_pow n (k := 5) (by omega)
  have hgives := h.of_dword v (BitVec.ofInt 32 (32 * n))
  rwa [hidx, hf] at hgives

/-- Settles O18: the model's rotate is the rule's pseudocode, and the negated count is what is left of 32. -/
theorem rotateLeftDwordResult : Obligations.RotateLeftDwordResult :=
  ⟨rfl, fun v b => ⟨_, rolD_computes.of_dword v b, rfl⟩,
    rolD_computes.of_mul_thirtyTwo (RotatesLeft.zero getLsbD_rol32),
    fun a b => gives_rol_iff_gives_ror (by omega) rolD_computes rorD_computes getLsbD_rol32 getLsbD_ror32 a
      (idx_neg b (k := 5) (by omega)),
    rolD_computes 0x80000001 4⟩

/-- Settles O19: the model's rotate is the rule's pseudocode, and the counts k and (32 - k) mod 32 are their own
reductions. -/
theorem rotateRightDwordResult : Obligations.RotateRightDwordResult := by
  refine ⟨rfl, fun v b => ⟨_, rorD_computes.of_dword v b, rfl⟩,
    rorD_computes.of_mul_thirtyTwo (RotatesRight.zero getLsbD_ror32), fun a k r => ?_, rorD_computes 0x80000001 4⟩
  have hidx : idx 32 (BitVec.ofNat 32 ((32 - k.val) % 32)) = (32 - idx 32 (BitVec.ofNat 32 k.val)) % 32 := by
    rw [idx_ofNat_of_lt k.isLt (by omega), idx_ofNat_of_lt (Nat.mod_lt _ (by omega)) (by omega)]
  exact (gives_rol_iff_gives_ror (by omega) rolD_computes rorD_computes getLsbD_rol32 getLsbD_ror32 a hidx r).symm

/-! ### Reverse and invert -/

/-- The double-words that R175 lists are palindromes. -/
theorem rev32_palindromes : ∀ v ∈ [0x00000000#32, 0xFFFFFFFF#32, 0x80000001#32], rev32 v = v := by
  have hpal : ∀ v ∈ [0x00000000#32, 0xFFFFFFFF#32, 0x80000001#32], ∀ i < 32, v.getLsbD (31 - i) = v.getLsbD i := by
    simp only [List.forall_mem_cons, List.not_mem_nil, false_implies, implies_true, and_true]
    decide
  exact fun v hv => mirror_eq_self getLsbD_rev32 (hpal v hv)

/-- The lowest bit is mirrored to the highest (R175). -/
theorem rev32_one : rev32 1 = 0x80000000 := by
  apply BitVec.eq_of_getLsbD_eq
  intro i hi
  rw [getLsbD_rev32 1 i hi]
  revert i
  decide

/-- Settles O20: `getLsbD_rev32` is the mirror bit by bit, and what rev.d 1 gives is its only response. -/
theorem reverseDwordResult : Obligations.ReverseDwordResult := by
  have hone : Gives .revD 1 0 (replyY 0x80000000) := by
    have h := revD_computes.of_dword 1 0
    rwa [rev32_one] at h
  refine ⟨rfl, fun v b => ⟨_, revD_computes v b, bitsOf_setWidth fun i hi => ?_⟩, fun v hv b => ?_, hone,
    fun h => absurd (hone.unique h) (by decide)⟩
  · rw [BitVec.setWidth_eq, getLsbD_rev32 v i hi]
  · have h := revD_computes.of_dword v b
    rwa [rev32_palindromes v hv] at h

/-- Settles O21: the inverts of the halves, put together, are the model's invert of the double-word, which is the
complement. -/
theorem invertDwordResult : Obligations.InvertDwordResult := by
  refine ⟨rfl, fun v b => ?_, fun b => ?_, invD_computes 0x0000FFFF 0⟩
  · have hhalves : ((inv16 (highWord v)).setWidth 32 <<< 16) ||| (inv16 (lowWord v)).setWidth 32 = inv32 v :=
      (composeDoubleWord_eq_shift_or _ _).symm
    refine ⟨_, _, invW_computes.of_setWidth (by omega) (lowWord v) b,
      invW_computes.of_setWidth (by omega) (highWord v) b, ?_, hhalves.trans (inv32_eq v)⟩
    rw [hhalves]
    exact invD_computes.of_dword v b
  · have h := invD_computes.of_dword 0 b
    rwa [inv32_eq] at h

/-! ### Compose, decompose and swap -/

/-- Settles O22: the composed double-word is the shifted high word over the low word, and both are read back. -/
theorem composeDwordResult : Obligations.ComposeDwordResult := by
  refine ⟨rfl, fun ha hb h l => ⟨composeDoubleWord h l, ?_, composeDoubleWord_eq_shift_or h l,
    highWord_composeDoubleWord h l, lowWord_composeDoubleWord h l⟩, composeD_composes 0x1C3C0 0x9400,
    composeD_composes 0xC3C0 0x9400⟩
  have hgives := composeD_composes (wordIn ha h) (wordIn hb l)
  rwa [setWidth_wordIn, setWidth_wordIn, BitVec.setWidth_eq] at hgives

/-- Settles O23: decompose.d answers the two halves of A. -/
theorem decomposeDwordResult : Obligations.DecomposeDwordResult := by
  refine ⟨rfl, fun v b => ?_, decomposeD_decomposes 0x12345678 0⟩
  have hgives := decomposeD_decomposes v b
  rwa [BitVec.setWidth_eq] at hgives

theorem swapD_computes : ComputesY .swapD 32 (fun v _ => swap32 v) := fun a b =>
  gives_of_exec (by rw [exec_swapD, BitVec.setWidth_eq, BitVec.setWidth_eq]; rfl)

theorem swap32_composeDoubleWord (h l : Word) : swap32 (composeDoubleWord h l) = composeDoubleWord l h := by
  rw [swap32, lowWord_composeDoubleWord, highWord_composeDoubleWord]

/-- swap.d exchanges the two words of A (R179). -/
theorem gives_swapD (h l : Word) (b : DWord) :
    Gives .swapD (composeDoubleWord h l) b (replyY (composeDoubleWord l h)) := by
  have hgives := swapD_computes.of_dword (composeDoubleWord h l) b
  rwa [swap32_composeDoubleWord] at hgives

/-- Settles O24: the words are exchanged, equal words are the case h = l, and the example's response is the only one. -/
theorem swapDwordResult : Obligations.SwapDwordResult := by
  have hexample : Gives .swapD 0x12345678 0 (replyY 0x56781234) := swapD_computes 0x12345678 0
  refine ⟨rfl, fun h l b => ?_, fun h b => gives_swapD h h b, hexample,
    fun h => absurd (hexample.unique h) (by decide)⟩
  rw [← composeDoubleWord_eq_shift_or]
  exact gives_swapD h l b

end Sys2Proof.Machine
end

section
/-! SUPPORT. The float decoder against the sums of its rule: the loops of steps 2 and 3 as sums over the bits, and the
number of the general formula (43_float.md R211, R218). -/

namespace Sys2Proof.Machine

/-! ### What fdecode gives -/

/-- fdecode answers the decoded pattern of A on Y (R211). -/
theorem gives_fdecode (a b : DWord) : Gives .fdecode a b (replyY (decodeFloatBits a)) :=
  gives_of_exec (by rw [exec_fdecode]; rfl)

/-- A NaN input takes step 4 (R212). -/
theorem gives_fdecode_of_isNaNInput {a : DWord} (h : isNaNInput a = true) (b : DWord) :
    Gives .fdecode a b (replyY Config.pNan) := by
  have hgives := gives_fdecode a b
  rwa [decodeFloatBits, if_pos h] at hgives

/-- Any other input takes step 5 (R213). -/
theorem gives_fdecode_of_not_isNaNInput {a : DWord} (h : ¬ isNaNInput a = true) (b : DWord) :
    Gives .fdecode a b (replyY (rne32 (generalFormula a))) := by
  have hgives := gives_fdecode a b
  rwa [decodeFloatBits, if_neg h] at hgives

/-- The pattern of the source's first scenario decodes to itself (R218). -/
theorem gives_fdecode_scenario : Gives .fdecode 0xC3C09400 0 (replyY 0xC3C09400) := by
  have hself : decodeFloatBits 0xC3C09400 = 0xC3C09400 := by decide
  have hgives := gives_fdecode 0xC3C09400 0
  rwa [hself] at hgives

/-! ### The loops as sums -/

/-- A loop that adds 2^i for each i that `p` selects adds the sum of those powers. -/
theorem foldl_range_eq_sum (p : ℕ → Bool) (n acc : ℕ) :
    (List.range n).foldl (fun e i => if p i then e + 2 ^ i else e) acc =
      acc + ∑ i ∈ Finset.range n, if p i then 2 ^ i else 0 := by
  induction n with
  | zero => simp
  | succ n ih =>
    rw [List.range_succ, List.foldl_append, ih, Finset.sum_range_succ]
    cases hp : p n <;> simp [hp, Nat.add_assoc]

/-- Step 2's loop is the sum of 2^(i-23) over the set bits i of 23 to 30 (R211). -/
theorem rawExponent_eq_sum (a : DWord) :
    rawExponent a = ∑ i ∈ Finset.range 8, if a.getLsbD (23 + i) then 2 ^ i else 0 := by
  simp only [rawExponent, getBit32_eq, foldl_range_eq_sum (fun i => a.getLsbD (23 + i)), Nat.zero_add]

/-- Step 3's loop, in units of 2^-23, is 2^23 and the sum of 2^i over the set bits i of 0 to 22 (R211). -/
theorem mantissaSum_eq_sum (a : DWord) :
    mantissaSum a = 2 ^ 23 + ∑ i ∈ Finset.range 23, if a.getLsbD i then 2 ^ i else 0 := by
  simp only [mantissaSum, getBit32_eq, foldl_range_eq_sum a.getLsbD]

/-- The mantissa is the mantissa sum in its units of 2^-23: 1.0 and 2^-(23-i) for each set bit i (R211). -/
theorem mantissaSum_scaled (a : DWord) :
    (mantissaSum a : ℚ) * (2 : ℚ) ^ (-23 : ℤ) =
      1 + ∑ i ∈ Finset.range 23, if a.getLsbD i then (2 : ℚ) ^ ((i : ℤ) - 23) else 0 := by
  rw [mantissaSum_eq_sum]
  push_cast
  rw [add_mul, Finset.sum_mul]
  congr 1
  · norm_num
  · refine Finset.sum_congr rfl fun i _ => ?_
    rw [ite_mul, zero_mul, sub_eq_add_neg, zpow_add₀ two_ne_zero, zpow_natCast]

/-! ### The general formula -/

/-- The number a sign, a magnitude and an exponent stand for, with the sign as a factor. -/
theorem ExactReal.value_eq_sign_mul (x : ExactReal) :
    x.value = (if x.neg then -1 else 1) * ((x.mag : ℚ) * (2 : ℚ) ^ x.exp) := by
  cases hneg : x.neg <;> simp [ExactReal.value, hneg]

/-- The general formula's number is sign * 2^(E-127) * m: the units of the mantissa sum are the 23 that its exponent
lies below E - 127 (R211, R213). -/
theorem generalFormula_value (a : DWord) :
    (generalFormula a).value = (if a.getLsbD 31 then -1 else 1) *
      (2 : ℚ) ^ ((rawExponent a : ℤ) - 127) * ((mantissaSum a : ℚ) * (2 : ℚ) ^ (-23 : ℤ)) := by
  have hexp : (2 : ℚ) ^ (generalFormula a).exp = (2 : ℚ) ^ ((rawExponent a : ℤ) - 127) * (2 : ℚ) ^ (-23 : ℤ) :=
    zpow_add₀ two_ne_zero _ _
  have hneg : (generalFormula a).neg = a.getLsbD 31 := getBit32_eq a 31
  have hmag : (generalFormula a).mag = mantissaSum a := rfl
  rw [ExactReal.value_eq_sign_mul, hneg, hmag, hexp]
  ring

/-- Settles O28: the loops are the rule's sums, and step 4's condition chooses between P_NAN and the rounded product. -/
theorem fdecodeFollowsFiveSteps : Obligations.FdecodeFollowsFiveSteps := by
  refine ⟨rfl, fun a b => ?_, gives_fdecode_scenario⟩
  have hnan : isNaNInput a = true ↔ rawExponent a = 255 ∧ a.extractLsb' 0 23 ≠ 0#23 := by
    rw [isNaNInput_iff, rawExponent_eq]
    rfl
  simp only [← rawExponent_eq_sum, ← mantissaSum_scaled, ← hnan]
  by_cases h : isNaNInput a = true
  · rw [if_pos h]
    exact gives_fdecode_of_isNaNInput h b
  · rw [if_neg h]
    exact ⟨generalFormula a, generalFormula_value a, gives_fdecode_of_not_isNaNInput h b⟩

/-! ### The source's scenarios -/

/-- The number the source's first pattern stands for: -256 * 1.5045166015625 (R218). -/
theorem binary32Value_scenario : binary32Value 0xC3C09400 = -385.15625 := by
  have hexp : ((0xC3C09400 : DWord).extractLsb' 23 8).toNat = 135 := by decide
  have hfrac : ((0xC3C09400 : DWord).extractLsb' 0 23).toNat = 0x409400 := by decide
  have hsign : (0xC3C09400 : DWord).getLsbD 31 = true := by decide
  simp only [binary32Value, hexp, hfrac, hsign]
  norm_num

/-- Settles O32: the fields are read off the patterns, and the second pattern is a NaN input. -/
theorem fdecodeSourceScenarios : Obligations.FdecodeSourceScenarios := by
  have hnan : isNaNInput 0x7FC00000 = true := by decide
  refine ⟨by decide, by decide, by decide, binary32Value_scenario, ?_, ?_, gives_fdecode_scenario,
    gives_fdecode_of_isNaNInput hnan 0⟩
  · rw [binary32Value_scenario]
    norm_num
  · rw [binary32Value_scenario]
    norm_num

end Sys2Proof.Machine
end

section
/-! SUPPORT. The one exception, IllegalCommand: what a fault is and which words raise it (60_exceptions.md R230 to
R232). -/

namespace Sys2Proof.Machine

/-! ### Cause codes -/

/-- The one fault there is carries the state it leaves (R230). -/
theorem Fault.eq_illegalCommand_after (f : Fault) : f = .illegalCommand f.after := by
  cases f
  rfl

theorem Fault.causeCode_eq_one (f : Fault) : f.causeCode = 1 := by
  cases f
  rfl

/-- ILL alone decides the cause a response reports (R230). -/
theorem Response.causeCode_eq (r : Response) : r.causeCode = if r.ill then 1 else 0 := rfl

/-! ### The steps that fault -/

/-- An operation completes from every state, with a response that has ILL = 0 (R24, R233). -/
theorem exists_exec_eq_answer (i : Instr) (s : State) :
    ∃ r : Response, r.ill = false ∧ exec i s = .next (s.answer r) := by
  obtain ⟨r, hr, hill, -⟩ := unnamedPortsHaveFixedValues i s.a s.b
  exact ⟨r, hill, hr s rfl rfl⟩

/-- A step faults only on a word the decoder refuses, and the fault leaves the illegal-command response (R231). -/
theorem step_eq_fault {s : State} {f : Fault} (h : step s = .fault f) :
    ∃ c why, s.cmd = some c ∧ decode c = .error why ∧ f = .illegalCommand (s.answer replyIllegal) := by
  rcases step_cases s with ⟨-, hs⟩ | ⟨c, i, -, -, hs⟩ | ⟨c, why, hc, hd, hs⟩
  · simp [hs, idle] at h
  · obtain ⟨r, -, hr⟩ := exists_exec_eq_answer i s
    simp [hs, hr] at h
  · rw [hs, takeIllegalCommand_eq, Host.Outcome.fault.injEq] at h
    exact ⟨c, why, hc, hd, h.symm⟩

/-! ### The words on the list -/

/-- R70's list leaves out no word but those of the opcode map (R68). -/
theorem listedIllegal_or_matches_row :
    ∀ c : BitVec 8, listedIllegal c = true ∨ ∃ row ∈ opcodeMap, c &&& row.2.1 = row.1 := by
  decide

/-- A word the decoder refuses is on the list: a word that matches a row of the map would decode to its operation. -/
theorem listedIllegal_of_decode_error {c : BitVec 8} {why : IllegalReason} (hd : decode c = .error why) :
    listedIllegal c = true := by
  rcases listedIllegal_or_matches_row c with hlisted | ⟨row, hrow, hm⟩
  · exact hlisted
  · have hok := decode_encode (row.2.2 (c.getLsbD 6))
    rw [encode_of_matches hrow hm, hd] at hok
    cases hok

/-! ### The statements -/

/-- Settles O51: the fault's state is the old one with the illegal-command response, and serving a command overwrites
every port of it. -/
theorem illegalCommandResponse : Obligations.IllegalCommandResponse := by
  intro s c why hc hd
  refine ⟨s.answer replyIllegal, ?_, rfl, fun d => ?_⟩
  · rw [step_of_decode_error hc hd, takeIllegalCommand_eq]
  · obtain ⟨r, hr⟩ := exists_serve_eq_answer d
    simp [hr]

/-- Settles O52, from what a fault is, what a step that faults has presented, and that operations complete. -/
theorem onlyIllegalCommandsRaise : Obligations.OnlyIllegalCommandsRaise := by
  refine ⟨fun f => ⟨f.causeCode_eq_one, f.after, f.eq_illegalCommand_after⟩, Response.causeCode_eq, ?_, ?_⟩
  · intro s f h
    obtain ⟨c, why, hc, hd, rfl⟩ := step_eq_fault h
    exact ⟨⟨c, hc, listedIllegal_of_decode_error hd⟩, replyIllegal, rfl, rfl⟩
  · intro i s
    obtain ⟨r, hill, hr⟩ := exists_exec_eq_answer i s
    refine ⟨s.answer r, hr, r, s.answer_response r, ?_⟩
    simp [Response.causeCode_eq, hill]

end Sys2Proof.Machine
end

section
/-! SUPPORT. The decoder against the encoder and against R70's list of illegal words, and the operation a step runs
(30_encoding.md R68 to R70, 10_state.md R21). -/

namespace Sys2Proof.Machine

/-- Settles O47: `decode_encode` is the one direction and `encode_of_decode` the other. -/
theorem decodeEncodeAgree : Obligations.DecodeEncodeAgree :=
  ⟨decode_encode, fun _ _ => encode_of_decode⟩

/-- Settles O48: each word is the word of the instruction it is said to decode to. -/
theorem decodeSampleWords : Obligations.DecodeSampleWords :=
  ⟨decode_encode .getB, decode_encode (.setB true), decode_encode .decomposeW, decode_encode .swapD,
    decode_encode .fdecode⟩

/-- Settles O49, by the branch of `step` that a legal word takes. -/
theorem stepRunsTheDecodedOperation : Obligations.StepRunsTheDecodedOperation :=
  fun _ _ _ => step_of_decode_ok

/-! ### The illegal words -/

/-- No instruction's word is on R70's list. -/
theorem listedIllegal_encode (i : Instr) : listedIllegal (encode i) = false := by
  cases i with
  | setB v | setW v | setD v => cases v <;> decide
  | _ => decide

/-- R70's list is exactly the words that the decoder refuses: a word that decodes is its instruction's. -/
theorem listedIllegal_iff_decode_error (c : BitVec 8) :
    listedIllegal c = true ↔ ∃ why, decode c = .error why := by
  refine ⟨fun hlisted => ?_, fun ⟨_, hd⟩ => listedIllegal_of_decode_error hd⟩
  cases hd : decode c with
  | error why => exact ⟨why, rfl⟩
  | ok i =>
    have hfree := listedIllegal_encode i
    rw [encode_of_decode hd, hlisted] at hfree
    cases hfree

/-- A step that takes a listed word is a fault, whatever stands on the other ports. -/
theorem exists_step_fault_of_listedIllegal {c : BitVec 8} (hlisted : listedIllegal c = true) (a b : DWord)
    (r : Option Response) :
    ∃ t, step { cmd := some c, a := a, b := b, response := r } = .fault (.illegalCommand t) := by
  obtain ⟨why, hd⟩ := (listedIllegal_iff_decode_error c).mp hlisted
  exact ⟨_, (step_of_decode_error rfl hd).trans (takeIllegalCommand_eq why _)⟩

/-- Settles O45: the list is what the decoder refuses, and its counts are evaluated. -/
theorem illegalCommandWords : Obligations.IllegalCommandWords :=
  ⟨listedIllegal_iff_decode_error, fun _ hlisted => exists_step_fault_of_listedIllegal hlisted,
    rfl, by decide, by decide, by decide, by decide, by decide, rfl⟩

end Sys2Proof.Machine
end

section
/-! SUPPORT. What every step keeps of the response on the ports, and the responses of a session (10_state.md section 3,
20_memory.md R49, 70_reset_and_hazards.md R261, R264). -/

namespace Sys2Proof.Machine

/-! ### Reset and idling -/

/-- Settles O50: the other two cases of `step_cases` have a command presented. -/
theorem stepWithoutCommandIsIdle : Obligations.StepWithoutCommandIsIdle := by
  intro s hnone
  rcases step_cases s with ⟨-, hs⟩ | ⟨c, i, hc, -, -⟩ | ⟨c, why, hc, -, -⟩
  · exact hs
  · simp [hnone] at hc
  · simp [hnone] at hc

/-- Settles O59: nothing has been answered and no command waits. -/
theorem resetHasNoResponse : Obligations.ResetHasNoResponse :=
  ⟨State.reset_response, State.reset_response, fun _ => rfl⟩

/-- An invariant of the response on the ports holds where there is none. -/
theorem forall_mem_reset_response (P : Response → Prop) : ∀ r ∈ State.reset.response, P r := by
  simp

/-- Settles O57: after reset there is no response. -/
theorem resetMeetsTheInvariants : Obligations.ResetMeetsTheInvariants :=
  ⟨forall_mem_reset_response _, forall_mem_reset_response _⟩

/-! ### What a step does to the response -/

/-- A step leaves the state as it is, or answers the command presented with the response that the block gives to that
command after reset. -/
theorem settle_step_cases (s : State) :
    settle s (step s) = s ∨
    ∃ (c : Command) (r : Response), s.cmd = some c.cmd ∧ settle s (step s) = s.answer r ∧
      (serve c State.reset).response = some r := by
  rcases hcmd : s.cmd with _ | w
  · exact .inl (by rw [stepWithoutCommandIsIdle s hcmd, settle_next])
  · obtain ⟨r, hr⟩ := exists_settle_step_eq_answer w s.a s.b
    have hserve : serve ⟨w, s.a, s.b⟩ State.reset = (State.reset.present ⟨w, s.a, s.b⟩).answer r := hr _ rfl rfl rfl
    exact .inr ⟨⟨w, s.a, s.b⟩, r, rfl, hr s hcmd rfl rfl, by rw [hserve, State.answer_response]⟩

/-- An invariant of the response on the ports is kept by every step if every command's response has it. -/
theorem forall_mem_response_settle_step {P : Response → Prop}
    (hP : ∀ (c : Command) (r : Response), (serve c State.reset).response = some r → P r) {s : State}
    (hs : ∀ r ∈ s.response, P r) : ∀ r ∈ (settle s (step s)).response, P r := by
  rcases settle_step_cases s with hsame | ⟨c, r, -, hanswer, hserve⟩
  · rwa [hsame]
  · rw [hanswer, State.answer_response]
    rintro r' ⟨⟩
    exact hP c r hserve

/-- What holds of the settled state holds of the state a step answers. -/
theorem settled_and_next {P : State → Prop} {s : State} (h : P (settle s (step s))) :
    P (settle s (step s)) ∧ ∀ t, step s = .next t → P t := by
  refine ⟨h, fun t ht => ?_⟩
  rwa [ht, settle_next] at h

/-- Settles O58: the response a step gives is the one that its command earns after reset. -/
theorem stepKeepsResponseEarned : Obligations.StepKeepsResponseEarned := fun _ hs =>
  settled_and_next (P := State.ResponseEarned) (forall_mem_response_settle_step (fun c _ hserve => ⟨c, hserve⟩) hs)

/-! ### Legal responses -/

theorem replyIllegal_legal : replyIllegal.Legal := by decide

theorem replyT_legal (t : Bool) : (replyT t).Legal := by simp [Response.Legal]

theorem replyY_legal (y : DWord) : (replyY y).Legal := by simp [Response.Legal]

/-- A narrow value on a port stays below any bound that its width stays below (R25). -/
theorem toNat_setWidth_lt {w k : Nat} (hw : w ≤ k) (v : BitVec w) : (v.setWidth 32).toNat < 2 ^ k :=
  calc (v.setWidth 32).toNat ≤ v.toNat := (BitVec.toNat_setWidth _ _).trans_le (Nat.mod_le _ _)
    _ < 2 ^ w := v.isLt
    _ ≤ 2 ^ k := Nat.pow_le_pow_right (by omega) hw

/-- Two results of at most 16 bits are a legal response (R25, R138, R178). -/
theorem replyYZ_legal {w : Nat} (hw : w ≤ 16) (y z : BitVec w) :
    (replyYZ (y.setWidth 32) (z.setWidth 32)).Legal :=
  ⟨fun hill => absurd hill (by simp), fun ht => absurd ht (by simp), toNat_setWidth_lt hw z,
    fun _ => toNat_setWidth_lt hw y⟩

/-- Every operation gives a legal response (R24, R25). -/
theorem gives_legal (i : Instr) (a b : DWord) : ∃ r : Response, r.Legal ∧ Gives i a b r := by
  rcases gives_cases i a b with ⟨-, t, h⟩ | ⟨-, hdec, -, -, -⟩ | ⟨-, -, y, h⟩
  · exact ⟨_, replyT_legal t, h⟩
  · simp only [List.mem_cons, List.not_mem_nil, or_false] at hdec
    rcases hdec with rfl | rfl
    · exact ⟨_, replyYZ_legal (by omega) _ _, decomposeW_decomposes a b⟩
    · exact ⟨_, replyYZ_legal (by omega) _ _, decomposeD_decomposes a b⟩
  · exact ⟨_, replyY_legal y, h⟩

/-! ### The response of a command -/

/-- A legal command is answered with what its operation gives (R21). -/
theorem serve_of_decode_ok {c : Command} {i : Instr} {r : Response} (hd : decode c.cmd = .ok i)
    (h : Gives i c.a c.b r) (s : State) : serve c s = (s.present c).answer r := by
  rw [serve, step_of_decode_ok (State.present_cmd c s) hd, h _ rfl rfl]
  rfl

/-- An illegal command is answered with the illegal-command response (R231). -/
theorem serve_of_decode_error {c : Command} {why : IllegalReason} (hd : decode c.cmd = .error why) (s : State) :
    serve c s = (s.present c).answer replyIllegal := by
  rw [serve, step_of_decode_error (State.present_cmd c s) hd, takeIllegalCommand_eq, settle_fault,
    Fault.after_illegalCommand]

/-- The response to a command is legal. -/
theorem legal_of_serve {c : Command} {s : State} {r : Response} (hserve : (serve c s).response = some r) :
    r.Legal := by
  cases hd : decode c.cmd with
  | ok i =>
    obtain ⟨r', hlegal, hgives⟩ := gives_legal i c.a c.b
    rw [serve_of_decode_ok hd hgives, State.answer_response, Option.some.injEq] at hserve
    rwa [← hserve]
  | error why =>
    rw [serve_of_decode_error hd, State.answer_response, Option.some.injEq] at hserve
    rw [← hserve]
    exact replyIllegal_legal

/-- Settles O56: the response a step gives is that of a command, which is legal. -/
theorem stepKeepsPortsLegal : Obligations.StepKeepsPortsLegal := fun _ hs =>
  settled_and_next (P := State.PortsLegal) (forall_mem_response_settle_step (fun _ _ => legal_of_serve) hs)

/-! ### Sessions -/

/-- The response to a command does not depend on the state it is served in (R23). -/
theorem serve_response_eq_reset (c : Command) (s : State) :
    (serve c s).response = (serve c State.reset).response := by
  obtain ⟨r, hr⟩ := exists_serve_eq_answer c
  simp [hr]

/-- A session is the commands answered one by one, each as if alone after reset (R49, R264). -/
theorem session_eq_map (cs : List Command) (s : State) :
    session cs s = cs.map (fun c => (serve c State.reset).response) := by
  induction cs generalizing s with
  | nil => rfl
  | cons c cs ih => rw [session, ih, serve_response_eq_reset, List.map_cons]

/-- The responses to a session do not depend on the state it starts in. -/
theorem session_append (cs ds : List Command) (s : State) :
    session (cs ++ ds) s = session cs s ++ session ds (afterSession cs s) := by
  simp only [session_eq_map, List.map_append]

/-- A command is legal exactly when its response has ILL = 0 (R231). -/
theorem exists_decode_ok_iff (c : Command) :
    (∃ i, decode c.cmd = .ok i) ↔ ∀ r ∈ (serve c State.reset).response, r.ill = false := by
  cases hd : decode c.cmd with
  | ok i =>
    obtain ⟨r, hr, hill, -⟩ := unnamedPortsHaveFixedValues i c.a c.b
    simp [serve_of_decode_ok hd hr, hill]
  | error why => simp [serve_of_decode_error hd, replyIllegal]

/-- Settles O55: a session is a map over its commands. -/
theorem responsesComeOnePerCommandInOrder : Obligations.ResponsesComeOnePerCommandInOrder := by
  refine fun cs s => ⟨session_eq_map cs s, ?_, fun ds => session_append cs ds s, ?_⟩
  · rw [session_eq_map, List.forall_mem_map]
    exact fun c _ => (repeatedCommandSameResponse c State.reset).2
  · rw [session_eq_map, List.forall_mem_map]
    exact forall₂_congr fun c _ => exists_decode_ok_iff c

end Sys2Proof.Machine
end

section
/-! SUPPORT. The bits of A and of B that each operation reads, and the bits its results can have (10_state.md R25,
30_encoding.md R65 to R67). -/

namespace Sys2Proof.Machine

/-! ### Operands cut down to the bits read -/

/-- Settles O41: the widths are 2^3, 2^4 and 2^5, and each divides 2^32. -/
theorem wideIntegersKeepTheirIndex : Obligations.WideIntegersKeepTheirIndex := by
  refine fun n => ⟨?_, idx_ofInt n (k := 3) (by omega), idx_ofInt n (k := 4) (by omega),
    idx_ofInt n (k := 5) (by omega)⟩
  apply BitVec.eq_of_toNat_eq
  rw [hostPattern, BitVec.toNat_ofInt, BitVec.toNat_ofNat]
  omega

/-- Cutting a port down to `n` bits keeps its low `w` bits (R25). -/
theorem setWidth_lowBits {w n : Nat} (hwn : w ≤ n) (p : DWord) : (lowBits n p).setWidth w = p.setWidth w := by
  rw [← setWidth_operand_eq_lowBits]
  apply BitVec.eq_of_getLsbD_eq
  intro i hi
  simp only [BitVec.getLsbD_setWidth]
  by_cases h32 : i < 32
  · simp [h32, hi, show i < n by omega]
  · simp [h32, BitVec.getLsbD_of_ge p i (by omega)]

/-- All 32 bits of a port are the port. -/
theorem lowBits_thirtyTwo (p : DWord) : lowBits 32 p = p := by
  have h := setWidth_lowBits (w := 32) le_rfl p
  rwa [BitVec.setWidth_eq, BitVec.setWidth_eq] at h

/-- Cutting B down to `k` bits keeps the index it reduces to at width 2^k (R67). -/
theorem idx_lowBits (b : DWord) {k : Nat} (hk : k ≤ 32) : idx (2 ^ k) (lowBits k b) = idx (2 ^ k) b := by
  rw [idx_two_pow _ hk, idx_two_pow _ hk, ← BitVec.setWidth_eq_extractLsb' hk, ← BitVec.setWidth_eq_extractLsb' hk,
    setWidth_lowBits le_rfl]

/-- An operation that gives the cut-down operands what it gives the operands reads no more than the bits left. -/
theorem readsOnly_of_same {i : Instr} {na nb : Nat}
    (h : ∀ a b, ∃ r, Gives i a b r ∧ Gives i (lowBits na a) (lowBits nb b) r) : ReadsOnly i na nb := by
  intro a b r
  obtain ⟨_, hr, hlow⟩ := h a b
  exact hr.iff_of_same hlow r

/-- An operation that computes on the low 2^k bits of A at an index reads k bits of B (R65, R66). -/
theorem ComputesY.readsOnly {i : Instr} {w k : Nat} (hw : w = 2 ^ k) (hk : k ≤ 32)
    {f : BitVec w → Nat → BitVec w} (h : ComputesY i w f) : ReadsOnly i w k := by
  subst hw
  refine readsOnly_of_same fun a b => ⟨_, h a b, ?_⟩
  have hlow := h (lowBits (2 ^ k) a) (lowBits k b)
  rwa [setWidth_lowBits le_rfl, idx_lowBits b hk] at hlow

/-- A get operation at a width of 2^k bits of A reads k bits of B (R65, R66). -/
theorem ReadsBitT.readsOnly {i : Instr} {w k : Nat} (hw : w = 2 ^ k) (hk : k ≤ 32) (h : ReadsBitT i w) :
    ReadsOnly i w k := by
  subst hw
  refine readsOnly_of_same fun a b => ⟨_, h a b, ?_⟩
  have hlow := h (lowBits (2 ^ k) a) (lowBits k b)
  rwa [setWidth_lowBits le_rfl, idx_lowBits b hk] at hlow

/-- An operation that computes on the low bits of A alone reads no bit of B (R66). -/
theorem ComputesY.readsOnly_zero {i : Instr} {w : Nat} {f : BitVec w → BitVec w} (h : ComputesY i w (fun v _ => f v)) :
    ReadsOnly i w 0 := by
  refine readsOnly_of_same fun a b => ⟨_, h a b, ?_⟩
  have hlow := h (lowBits w a) (lowBits 0 b)
  rwa [setWidth_lowBits le_rfl] at hlow

/-- A compose operation reads the two halves it composes (R65). -/
theorem ComposesY.readsOnly {i : Instr} {n h : Nat} {compose : BitVec h → BitVec h → BitVec n}
    (hc : ComposesY i n h compose) : ReadsOnly i h h := by
  refine readsOnly_of_same fun a b => ⟨_, hc a b, ?_⟩
  have hlow := hc (lowBits h a) (lowBits h b)
  rwa [setWidth_lowBits le_rfl, setWidth_lowBits le_rfl] at hlow

/-- A decompose operation reads the value it takes apart and no bit of B (R65, R66). -/
theorem DecomposesYZ.readsOnly {i : Instr} {n h : Nat} {high low : BitVec n → BitVec h}
    (hd : DecomposesYZ i n h high low) : ReadsOnly i n 0 := by
  refine readsOnly_of_same fun a b => ⟨_, hd a b, ?_⟩
  have hlow := hd (lowBits n a) (lowBits 0 b)
  rwa [setWidth_lowBits le_rfl] at hlow

/-- fdecode answers on Y what it decodes from all of A (R211). -/
theorem fdecode_computes : ComputesY .fdecode 32 (fun v _ => decodeFloatBits v) := fun a b => by
  rw [BitVec.setWidth_eq, BitVec.setWidth_eq]
  exact gives_fdecode a b

/-- Settles O42, from the shapes of the operations; the widths are 2^3, 2^4 and 2^5. -/
theorem operandBitsRead : Obligations.OperandBitsRead := by
  simp only [Obligations.OperandBitsRead, List.forall_mem_cons, List.not_mem_nil, false_implies, implies_true,
    and_true]
  refine ⟨fun v => ⟨?_, ?_, ?_, ?_⟩, ⟨?_, ?_⟩, fun v => ⟨?_, ?_, ?_, ?_⟩, ⟨?_, ?_, ?_, ?_⟩, ?_,
    fun v => ⟨?_, ?_, ?_, ?_⟩, ⟨?_, ?_, ?_, ?_, ?_⟩, ?_⟩
  · exact getB_reads.readsOnly (k := 3) rfl (by omega)
  · exact (setB_computes v).readsOnly (k := 3) rfl (by omega)
  · exact rolB_computes.readsOnly (k := 3) rfl (by omega)
  · exact rorB_computes.readsOnly (k := 3) rfl (by omega)
  · exact revB_computes.readsOnly_zero
  · exact invB_computes.readsOnly_zero
  · exact getW_reads.readsOnly (k := 4) rfl (by omega)
  · exact (setW_computes v).readsOnly (k := 4) rfl (by omega)
  · exact rolW_computes.readsOnly (k := 4) rfl (by omega)
  · exact rorW_computes.readsOnly (k := 4) rfl (by omega)
  · exact revW_computes.readsOnly_zero
  · exact invW_computes.readsOnly_zero
  · exact decomposeW_decomposes.readsOnly
  · exact swapW_computes.readsOnly_zero
  · exact composeW_composes.readsOnly
  · exact getD_reads.readsOnly (k := 5) rfl (by omega)
  · exact (setD_computes v).readsOnly (k := 5) rfl (by omega)
  · exact rolD_computes.readsOnly (k := 5) rfl (by omega)
  · exact rorD_computes.readsOnly (k := 5) rfl (by omega)
  · exact revD_computes.readsOnly_zero
  · exact invD_computes.readsOnly_zero
  · exact decomposeD_decomposes.readsOnly
  · exact swapD_computes.readsOnly_zero
  · exact fdecode_computes.readsOnly_zero
  · exact composeD_composes.readsOnly

/-! ### The widths of the results -/

/-- An operation that answers a value of `w` bits on Y has Y below 2^w and Z = 0 (R25). -/
theorem ComputesY.resultWidths {i : Instr} {w : Nat} {f : BitVec w → Nat → BitVec w} (h : ComputesY i w f) :
    ResultWidths i w 0 :=
  fun a b => ⟨_, h a b, toNat_setWidth_lt le_rfl _, Nat.one_pos⟩

/-- A get operation has Y = 0 and Z = 0 (R24, R25). -/
theorem ReadsBitT.resultWidths {i : Instr} {w : Nat} (h : ReadsBitT i w) : ResultWidths i 0 0 :=
  fun a b => ⟨_, h a b, Nat.one_pos, Nat.one_pos⟩

theorem ComposesY.resultWidths {i : Instr} {n h : Nat} {compose : BitVec h → BitVec h → BitVec n}
    (hc : ComposesY i n h compose) : ResultWidths i n 0 :=
  fun a b => ⟨_, hc a b, toNat_setWidth_lt le_rfl _, Nat.one_pos⟩

theorem DecomposesYZ.resultWidths {i : Instr} {n h : Nat} {high low : BitVec n → BitVec h}
    (hd : DecomposesYZ i n h high low) : ResultWidths i h h :=
  fun a b => ⟨_, hd a b, toNat_setWidth_lt le_rfl _, toNat_setWidth_lt le_rfl _⟩

/-- Settles O43, from the shapes of the operations. -/
theorem resultsAreZeroExtended : Obligations.ResultsAreZeroExtended := by
  simp only [Obligations.ResultsAreZeroExtended, List.forall_mem_cons, List.not_mem_nil, false_implies, implies_true,
    and_true]
  exact ⟨fun v => ⟨(setB_computes v).resultWidths, rolB_computes.resultWidths, rorB_computes.resultWidths,
      revB_computes.resultWidths, invB_computes.resultWidths⟩,
    fun v => ⟨(setW_computes v).resultWidths, rolW_computes.resultWidths, rorW_computes.resultWidths,
      revW_computes.resultWidths, invW_computes.resultWidths, composeW_composes.resultWidths,
      swapW_computes.resultWidths⟩,
    ⟨getB_reads.resultWidths, getW_reads.resultWidths, getD_reads.resultWidths⟩,
    decomposeW_decomposes.resultWidths, decomposeD_decomposes.resultWidths⟩

end Sys2Proof.Machine
end

section
/-! SUPPORT. What 40_byte.md, 41_word.md and 42_dword.md mark as their own inferences: rotates bit by bit, the layered
get and set on the whole value, the mirror from the mirrors of the halves, and swap (R103, R104, R131 to R145, R171
to R185). -/

namespace Sys2Proof.Machine

/-! ### Rotates -/

/-- A bit below the width of the operand is a bit of the port (R25). -/
theorem getLsbD_operand {w i : Nat} (a : DWord) (hi : i < w) : (a.setWidth w).getLsbD i = a.getLsbD i := by
  rw [BitVec.getLsbD_setWidth, decide_eq_true hi, Bool.true_and]

/-- The k-th place below i, round a width w (R103). -/
theorem int_sub_emod_toNat {w k i : Nat} (hk : k < w) (hi : i < w) :
    (((i : Int) - k) % w).toNat = if i < k then w + i - k else i - k := by
  split_ifs with h
  · rw [← Int.add_emod_right, Int.emod_eq_of_lt (by omega) (by omega)]
    omega
  · rw [Int.emod_eq_of_lt (by omega) (by omega)]
    omega

/-- The k-th place above i, round a width w (R104). -/
theorem int_add_emod_toNat {w k i : Nat} (hk : k < w) (hi : i < w) :
    (((i : Int) + k) % w).toNat = if i + k < w then i + k else i + k - w := by
  split_ifs with h
  · rw [Int.emod_eq_of_lt (by omega) (by omega)]
    omega
  · rw [← Int.sub_emod_right, Int.emod_eq_of_lt (by omega) (by omega)]
    omega

/-- A rotate left takes bit i of the result from (i - B) mod w of A. -/
theorem exists_gives_rol_bitsOf {rolI : Instr} {w : Nat} {rol : BitVec w → Nat → BitVec w} (hpos : 0 < w)
    (hrolI : ComputesY rolI w rol) (hl : RotatesLeft rol) (a b : DWord) :
    ∃ y, Gives rolI a b ⟨y, 0, false, false⟩ ∧
      BitsOf y w (fun i => a.getLsbD (((i : Int) - reduced w b) % w).toNat) := by
  have hk : reduced w b < w := idx_lt w hpos b
  refine ⟨_, hrolI a b, bitsOf_setWidth fun i hi => ?_⟩
  rw [int_sub_emod_toNat hk hi]
  refine (hl _ _ hk i hi).trans ?_
  split_ifs with hwrap
  · exact getLsbD_operand a (by omega)
  · exact getLsbD_operand a (by omega)

/-- A rotate right takes bit i of the result from (i + B) mod w of A. -/
theorem exists_gives_ror_bitsOf {rorI : Instr} {w : Nat} {ror : BitVec w → Nat → BitVec w} (hpos : 0 < w)
    (hrorI : ComputesY rorI w ror) (hr : RotatesRight ror) (a b : DWord) :
    ∃ y, Gives rorI a b ⟨y, 0, false, false⟩ ∧
      BitsOf y w (fun i => a.getLsbD (((i : Int) + reduced w b) % w).toNat) := by
  have hk : reduced w b < w := idx_lt w hpos b
  refine ⟨_, hrorI a b, bitsOf_setWidth fun i hi => ?_⟩
  rw [int_add_emod_toNat hk hi]
  refine (hr _ _ hk i hi).trans ?_
  split_ifs with hwrap
  · exact getLsbD_operand a (by omega)
  · exact getLsbD_operand a (by omega)

/-- Rotating a value left by the width of its halves exchanges them. -/
theorem RotatesLeft.half_append {h : Nat} {rol : BitVec (h + h) → Nat → BitVec (h + h)} (hl : RotatesLeft rol)
    (hpos : 0 < h) (x y : BitVec h) : rol (x ++ y) h = y ++ x := by
  apply BitVec.eq_of_getLsbD_eq
  intro i hi
  rw [hl _ h (by omega) i hi]
  simp only [BitVec.getLsbD_append]
  by_cases hih : i < h
  · rw [if_pos hih, if_neg (by omega), if_pos hih, show h + h + i - h - h = i by omega]
  · rw [if_neg hih, if_pos (by omega), if_neg hih]

theorem rol16_eight (v : Word) : rol16 v 8 = swap16 v := by
  rw [← composeWord_highByte_lowByte v, swap16_composeWord]
  exact RotatesLeft.half_append (h := 8) getLsbD_rol16 (by omega) _ _

theorem rol32_sixteen (v : DWord) : rol32 v 16 = swap32 v := by
  rw [← composeDoubleWord_highWord_lowWord v, swap32_composeDoubleWord]
  exact RotatesLeft.half_append (h := 16) getLsbD_rol32 (by omega) _ _

/-- Settles O25: the bits from `RotatesLeft` and `RotatesRight`, negative counts from `idx_neg`, and half the width from
the exchange of the halves. -/
theorem rotatesMoveBitsRoundTheWidth : Obligations.RotatesMoveBitsRoundTheWidth := by
  refine ⟨exists_gives_rol_bitsOf (by omega) rolB_computes getLsbD_rol8,
    exists_gives_ror_bitsOf (by omega) rorB_computes getLsbD_ror8,
    exists_gives_rol_bitsOf (by omega) rolW_computes getLsbD_rol16,
    exists_gives_ror_bitsOf (by omega) rorW_computes getLsbD_ror16,
    exists_gives_rol_bitsOf (by omega) rolD_computes getLsbD_rol32,
    exists_gives_ror_bitsOf (by omega) rorD_computes getLsbD_ror32, fun a b y => ?_, fun a k y => ?_, fun a b y => ?_,
    fun a b y => ?_⟩
  · exact gives_rol_iff_gives_ror (by omega) rolB_computes rorB_computes getLsbD_rol8 getLsbD_ror8 a
      (idx_neg b (k := 3) (by omega)) _
  · have hidx : idx 8 (BitVec.ofNat 32 ((8 - k.val) % 8)) = (8 - idx 8 (BitVec.ofNat 32 k.val)) % 8 := by
      rw [idx_ofNat_of_lt k.isLt (by omega), idx_ofNat_of_lt (Nat.mod_lt _ (by omega)) (by omega)]
    exact (gives_rol_iff_gives_ror (by omega) rolB_computes rorB_computes getLsbD_rol8 getLsbD_ror8 a hidx _).symm
  · have hidx : idx 16 8 = 8 := rfl
    have hrol := rolW_computes a 8
    rw [hidx, rol16_eight] at hrol
    exact hrol.iff_of_same (swapW_computes a b) _
  · have hidx : idx 32 16 = 16 := rfl
    have hrol := rolD_computes a 16
    rw [hidx, rol32_sixteen] at hrol
    exact hrol.iff_of_same (swapD_computes a b) _

/-! ### Get and set -/

/-- A set operation forces the bit of A that B names and keeps the others. -/
theorem exists_gives_set_bitsOf {setI : Bool → Instr} {w : Nat} {set : BitVec w → Nat → Bool → BitVec w} (hpos : 0 < w)
    (hsetI : ∀ x, ComputesY (setI x) w (set · · x)) (hset : SetsBit set) (a b : DWord) (x : Bool) :
    ∃ y, Gives (setI x) a b ⟨y, 0, false, false⟩ ∧
      BitsOf y w (fun i => if i = reduced w b then x else a.getLsbD i) := by
  refine ⟨_, hsetI x a b, bitsOf_setWidth fun i hi => ?_⟩
  rw [hset _ _ x (idx_lt w hpos b), getLsbD_operand a hi]
  rfl

/-- A get operation answers the bit of A that B names, which lies below its width. -/
theorem ReadsBitT.gives_getLsbD {getI : Instr} {w : Nat} (h : ReadsBitT getI w) (hpos : 0 < w) (a b : DWord) :
    Gives getI a b ⟨0, 0, a.getLsbD (reduced w b), false⟩ := by
  have hgives := h a b
  rwa [getLsbD_operand a (idx_lt w hpos b)] at hgives

/-- Settles O26: the layered get reads the bit of the whole value, and the layered set sets it. -/
theorem layeredGetAndSetActOnTheWholeValue : Obligations.LayeredGetAndSetActOnTheWholeValue :=
  ⟨getW_reads.gives_getLsbD (by omega), getD_reads.gives_getLsbD (by omega),
    exists_gives_set_bitsOf (by omega) setW_computes getLsbD_setBit16,
    exists_gives_set_bitsOf (by omega) setD_computes getLsbD_setBit32⟩

/-! ### The mirror -/

/-- The mirror of a value is the mirrors of its halves, exchanged. -/
theorem mirror_append {h : Nat} {rev : BitVec (h + h) → BitVec (h + h)} {revHalf : BitVec h → BitVec h}
    (hrev : ∀ v i, i < h + h → (rev v).getLsbD i = v.getLsbD (h + h - 1 - i))
    (hhalf : ∀ v i, i < h → (revHalf v).getLsbD i = v.getLsbD (h - 1 - i)) (x y : BitVec h) :
    rev (x ++ y) = revHalf y ++ revHalf x := by
  apply BitVec.eq_of_getLsbD_eq
  intro i hi
  rw [hrev _ i hi]
  simp only [BitVec.getLsbD_append]
  by_cases hih : i < h
  · rw [if_neg (by omega), if_pos hih, hhalf x i hih, show h + h - 1 - i - h = h - 1 - i by omega]
  · rw [if_pos (by omega), if_neg hih, hhalf y _ (by omega), show h - 1 - (i - h) = h + h - 1 - i by omega]

theorem rev16_eq_composeWord (v : Word) : rev16 v = composeWord (rev8 (lowByte v)) (rev8 (highByte v)) := by
  have h := mirror_append (h := 8) getLsbD_rev16 getLsbD_rev8 (highByte v) (lowByte v)
  rwa [show highByte v ++ lowByte v = v from composeWord_highByte_lowByte v] at h

theorem rev32_eq_composeDoubleWord (v : DWord) :
    rev32 v = composeDoubleWord (rev16 (lowWord v)) (rev16 (highWord v)) := by
  have h := mirror_append (h := 16) getLsbD_rev32 getLsbD_rev16 (highWord v) (lowWord v)
  rwa [show highWord v ++ lowWord v = v from composeDoubleWord_highWord_lowWord v] at h

/-- Settles O27: the mirrors of the halves, exchanged and put together on a port. -/
theorem mirrorIsSwapAndHalfReverse : Obligations.MirrorIsSwapAndHalfReverse := by
  constructor
  · intro hi v b
    refine ⟨_, _, _, revW_computes.of_wordIn hi v b, revB_computes.of_setWidth (by omega) (lowByte v) b,
      revB_computes.of_setWidth (by omega) (highByte v) b, ?_⟩
    rw [rev16_eq_composeWord, setWidth_composeWord]
  · intro v b
    refine ⟨_, _, _, revD_computes.of_dword v b, revW_computes.of_setWidth (by omega) (lowWord v) b,
      revW_computes.of_setWidth (by omega) (highWord v) b, ?_⟩
    rw [rev32_eq_composeDoubleWord, composeDoubleWord_eq_shift_or]

/-! ### Swap -/

theorem swap16_involutive : Function.Involutive swap16 := fun v => by
  rw [← composeWord_highByte_lowByte v, swap16_composeWord, swap16_composeWord]

theorem swap32_involutive : Function.Involutive swap32 := fun v => by
  rw [← composeDoubleWord_highWord_lowWord v, swap32_composeDoubleWord, swap32_composeDoubleWord]

/-- Settles O37: halves exchanged twice are in their places. -/
theorem swapIsInvolution : Obligations.SwapIsInvolution :=
  ⟨involution_of_involutive (by omega) swapW_computes swap16_involutive,
    involution_of_involutive (by omega) swapD_computes swap32_involutive⟩

end Sys2Proof.Machine
end

section
/-! SUPPORT. The fields of a binary32 pattern as numbers, and fdecode in closed form: a NaN input gives P_NAN, exponent
field 0 the halved significand, and every other pattern itself (43_float.md R212 to R216). -/

namespace Sys2Proof.Machine

/-! ### Patterns as numbers -/

/-- The sign bit alone. -/
def signBit (neg : Bool) : DWord := if neg then 0x80000000 else 0

/-- A sign and the 31 bits below it are the sum of both. -/
theorem toNat_signBit_or (neg : Bool) {n : Nat} (hn : n < 2 ^ 31) :
    (signBit neg ||| BitVec.ofNat 32 n).toNat = neg.toNat * 2 ^ 31 + n := by
  have hor := Nat.two_pow_add_eq_or_of_lt hn neg.toNat
  have hsign : (signBit neg).toNat = 2 ^ 31 * neg.toNat := by cases neg <;> rfl
  rw [BitVec.toNat_or, hsign, BitVec.toNat_ofNat, Nat.mod_eq_of_lt (by omega), ← hor, Nat.mul_comm]

/-- A pattern is its sign bit, its exponent field and its fraction field, each at its place (R210). -/
theorem toNat_eq_fields (p : DWord) :
    p.toNat = (p.getLsbD 31).toNat * 2 ^ 31 + ((p.extractLsb' 23 8).toNat * 2 ^ 23 + (fractionField p).toNat) := by
  have hlt := p.isLt
  have hsign : (p.getLsbD 31).toNat = p.toNat / 2 ^ 31 % 2 := by
    rw [BitVec.getLsbD, Nat.toNat_testBit]
  simp only [hsign, fractionField, BitVec.extractLsb'_toNat, Nat.shiftRight_eq_div_pow]
  omega

/-- The sign bit over the bits below it is the pattern. -/
theorem signBit_or_fields (p : DWord) :
    signBit (p.getLsbD 31) ||| BitVec.ofNat 32 ((p.extractLsb' 23 8).toNat * 2 ^ 23 + (fractionField p).toNat) = p := by
  have he := (p.extractLsb' 23 8).isLt
  have hf := (fractionField p).isLt
  apply BitVec.eq_of_toNat_eq
  rw [toNat_signBit_or _ (by omega), ← toNat_eq_fields]

/-! ### NaN inputs -/

/-- The patterns R6 admits as P_NAN are NaN inputs (R212). -/
theorem isNaNInput_bits (p : Config.NaNPattern) : isNaNInput p.bits = true :=
  (isNaNInput_iff p.bits).mpr ⟨congrArg BitVec.toNat p.bits_exponent, p.bits_fraction_ne_zero⟩

/-- Settles O29: a pattern with exponent field 255 and a fraction that is not 0 is one of those R6 admits. -/
theorem fdecodeNaNIgnoresSignAndFraction : Obligations.FdecodeNaNIgnoresSignAndFraction := by
  refine ⟨fun s f b hf => ?_, Config.pNanChoice.bits_exponent, Config.pNanChoice.bits_fraction_ne_zero⟩
  obtain ⟨p, hp⟩ := Config.NaNPattern.exists_bits_eq s f hf
  rw [← hp]
  exact gives_fdecode_of_isNaNInput (isNaNInput_bits p) b

/-! ### The rounding of the general formula -/

/-- The rounding of a number that is not 0: its sign over the bits of its magnitude (R12). -/
theorem rne32_of_pos {x : ExactReal} (hpos : 0 < x.mag) :
    rne32 x = signBit x.neg ||| BitVec.ofNat 32 (magnitudeBits x.mag x.exp) :=
  if_neg hpos.ne'

/-- The bits of a rounded magnitude are those of its units above its last place, up to the infinity (R12). -/
theorem magnitudeBits_eq_min (mag : Nat) (exp : Int) :
    magnitudeBits mag exp =
      min ((lastPlace mag exp + 149).toNat * 2 ^ 23 + inUnits mag exp (lastPlace mag exp)) (255 * 2 ^ 23) := by
  simp only [magnitudeBits]
  split_ifs <;> omega

/-- What the decoder rounds, in terms of the pattern's fields (R211). -/
theorem rne32_generalFormula (a : DWord) :
    rne32 (generalFormula a) = signBit (a.getLsbD 31) |||
      BitVec.ofNat 32 (magnitudeBits (2 ^ 23 + (fractionField a).toNat) ((a.extractLsb' 23 8).toNat - 150)) := by
  have hmag : (generalFormula a).mag = 2 ^ 23 + (fractionField a).toNat := mantissaSum_eq a
  have hexp : (generalFormula a).exp = ((a.extractLsb' 23 8).toNat : Int) - 150 := by
    simp only [generalFormula, rawExponent_eq, Config.exponentBias]
    omega
  have hneg : (generalFormula a).neg = a.getLsbD 31 := getBit32_eq a 31
  rw [rne32_of_pos (by omega), hmag, hexp, hneg]

/-- The leading bit of a significand with its implicit 1 is bit 23 (R210). -/
theorem log2_significand {f : Nat} (hf : f < 2 ^ 23) : Nat.log2 (2 ^ 23 + f) = 23 :=
  (Nat.log2_eq_iff (by omega)).mpr (by omega)

/-- An exponent field that is not 0 puts the last place of the product at the last place of the pattern, so nothing is
rounded: the magnitude has the pattern's own bits (R214). -/
theorem magnitudeBits_normal {e f : Nat} (he : 1 ≤ e) (hf : f < 2 ^ 23) (hfin : e * 2 ^ 23 + f ≤ 255 * 2 ^ 23) :
    magnitudeBits (2 ^ 23 + f) (e - 150) = e * 2 ^ 23 + f := by
  have hlast : lastPlace (2 ^ 23 + f) (e - 150) = e - 150 := by
    rw [lastPlace, log2_significand hf]
    omega
  have hunits : inUnits (2 ^ 23 + f) (e - 150) (e - 150) = 2 ^ 23 + f := by simp [inUnits]
  rw [magnitudeBits_eq_min, hlast, hunits]
  omega

/-- With exponent field 0 the last place is that of the subnormal values, one above that of the product: the significand
is halved and rounded (R214). -/
theorem magnitudeBits_zeroExponent {f : Nat} (hf : f < 2 ^ 23) :
    magnitudeBits (2 ^ 23 + f) (-150) = shiftRightNearestEven (2 ^ 23 + f) 1 := by
  have hlast : lastPlace (2 ^ 23 + f) (-150) = -149 := by
    rw [lastPlace, log2_significand hf]
    omega
  have hunits : inUnits (2 ^ 23 + f) (-150) (-149) = shiftRightNearestEven (2 ^ 23 + f) 1 := by simp [inUnits]
  have hbound := shiftRightNearestEven_spec (2 ^ 23 + f) 1
  rw [magnitudeBits_eq_min, hlast, hunits]
  omega

/-- A pattern whose exponent field is not 0 and which is no NaN decodes to itself, the infinities too (R214, R216). -/
theorem rne32_generalFormula_eq_self {a : DWord} (he : 1 ≤ (a.extractLsb' 23 8).toNat)
    (hnan : ¬ isNaNInput a = true) : rne32 (generalFormula a) = a := by
  have he8 := (a.extractLsb' 23 8).isLt
  have hf := (fractionField a).isLt
  have hinf : (a.extractLsb' 23 8).toNat = 255 → (fractionField a).toNat = 0 := by
    intro h255
    rw [isNaNInput_iff, not_and, not_not] at hnan
    rw [hnan h255]
    rfl
  rw [rne32_generalFormula, magnitudeBits_normal he hf (by omega), signBit_or_fields]

/-! ### Exponent field 0 -/

/-- Half the significand, before it is rounded (R214). -/
theorem toNat_halfSignificand (f : BitVec 23) :
    ((0x800000#24 + f.setWidth 24) >>> 1 : BitVec 24).toNat = (2 ^ 23 + f.toNat) / 2 := by
  have hf := f.isLt
  rw [BitVec.toNat_ushiftRight, BitVec.toNat_add, BitVec.toNat_setWidth, BitVec.toNat_ofNat, Nat.shiftRight_eq_div_pow]
  omega

/-- The lowest bit of a vector is its number's parity. -/
theorem getLsbD_zero_eq {w : Nat} (v : BitVec w) : v.getLsbD 0 = decide (v.toNat % 2 = 1) := by
  rw [BitVec.getLsbD, Nat.testBit_zero]

/-- The spec's q as a number: half the significand, and one more where that makes a tie even (R214). -/
theorem toNat_zeroExponentQ (f : BitVec 23) :
    (zeroExponentQ f).toNat = if f.toNat % 2 = 1 ∧ (2 ^ 23 + f.toNat) / 2 % 2 = 1 then (2 ^ 23 + f.toNat) / 2 + 1
      else (2 ^ 23 + f.toNat) / 2 := by
  have hf := f.isLt
  simp only [zeroExponentQ, getLsbD_zero_eq, toNat_halfSignificand, Bool.and_eq_true, decide_eq_true_eq]
  split_ifs with htie
  · have hone : (1 : BitVec 24).toNat = 1 := rfl
    rw [BitVec.toNat_add, toNat_halfSignificand, hone]
    omega
  · exact toNat_halfSignificand f

/-- The spec's q is the significand halved and rounded to nearest even (R12, R214). -/
theorem toNat_zeroExponentQ_eq_shift (f : BitVec 23) :
    (zeroExponentQ f).toNat = shiftRightNearestEven (2 ^ 23 + f.toNat) 1 := by
  rw [toNat_zeroExponentQ]
  simp only [shiftRightNearestEven, Nat.shiftRight_eq_div_pow, pow_one, Bool.or_eq_true, decide_eq_true_eq,
    Bool.and_eq_true, beq_iff_eq]
  split_ifs <;> omega

/-- The sign field of a pattern, moved to its place. -/
theorem signField_shift_eq (a : DWord) : ((a.extractLsb' 31 1).setWidth 32 <<< 31) = signBit (a.getLsbD 31) := by
  have hsign : a.extractLsb' 31 1 = BitVec.ofBool (a.getLsbD 31) := by
    ext i hi
    obtain rfl : i = 0 := by omega
    simp
  rw [hsign]
  cases a.getLsbD 31 <;> rfl

/-- Exponent field 0 gives the sign over q (R214). -/
theorem rne32_generalFormula_zeroExponent {a : DWord} (he : (a.extractLsb' 23 8).toNat = 0) :
    rne32 (generalFormula a) =
      ((a.extractLsb' 31 1).setWidth 32 <<< 31) ||| (zeroExponentQ (fractionField a)).setWidth 32 := by
  have hq : magnitudeBits (2 ^ 23 + (fractionField a).toNat) (-150) = (zeroExponentQ (fractionField a)).toNat := by
    rw [magnitudeBits_zeroExponent (fractionField a).isLt, toNat_zeroExponentQ_eq_shift]
  have hexp : ((0 : Nat) : Int) - 150 = -150 := rfl
  rw [rne32_generalFormula, he, signField_shift_eq, hexp, hq, BitVec.ofNat_toNat]

/-- The bounds of q, and where it carries into the exponent field (R214). -/
theorem zeroExponentQ_bounds (f : BitVec 23) :
    0x400000 ≤ (zeroExponentQ f).toNat ∧ (zeroExponentQ f).toNat ≤ 0x800000 ∧
      ((zeroExponentQ f).toNat = 0x800000 ↔ f.toNat = 0x7FFFFF) := by
  have hf := f.isLt
  rw [toNat_zeroExponentQ]
  split_ifs <;> omega

/-! ### The numbers patterns stand for -/

/-- The number that the 31 bits below the sign stand for (R12). -/
def magnitudeValue (n : Nat) : ℚ :=
  if n / 2 ^ 23 = 0 then (n % 2 ^ 23 : ℕ) * (2 : ℚ) ^ (-149 : ℤ)
  else (2 ^ 23 + n % 2 ^ 23 : ℕ) * (2 : ℚ) ^ ((n / 2 ^ 23 : ℕ) - 150 : ℤ)

/-- A pattern stands for its magnitude with its sign. -/
theorem binary32Value_eq {p : DWord} {neg : Bool} {n : Nat} (hn : n < 2 ^ 31)
    (hp : p.toNat = neg.toNat * 2 ^ 31 + n) :
    p.getLsbD 31 = neg ∧ binary32Value p = if neg then -magnitudeValue n else magnitudeValue n := by
  have hfields := toNat_eq_fields p
  have he8 := (p.extractLsb' 23 8).isLt
  have hf := (fractionField p).isLt
  have hsign : p.getLsbD 31 = neg := by
    have hnat : (p.getLsbD 31).toNat = neg.toNat := by omega
    revert hnat
    cases p.getLsbD 31 <;> cases neg <;> simp
  have he : (p.extractLsb' 23 8).toNat = n / 2 ^ 23 := by
    rw [hsign] at hfields
    omega
  have hfrac : (p.extractLsb' 0 23).toNat = n % 2 ^ 23 := by
    change (fractionField p).toNat = n % 2 ^ 23
    rw [hsign] at hfields
    omega
  refine ⟨hsign, ?_⟩
  simp only [binary32Value, hsign, he, hfrac, magnitudeValue]

/-- The bits of `n` units of the last place `k - 149`, where `n` holds the leading 1 or the last place is that of the
subnormal values: they stand for those units, also where n has carried to 2^24. -/
theorem magnitudeValue_units {k n : Nat} (hn : n ≤ 2 ^ 24) (hk : k = 0 ∨ 2 ^ 23 ≤ n) :
    magnitudeValue (k * 2 ^ 23 + n) = n * (2 : ℚ) ^ ((k : ℤ) - 149) := by
  unfold magnitudeValue
  rcases Nat.lt_or_ge n (2 ^ 23) with hlt | hge
  · obtain rfl : k = 0 := by omega
    rw [if_pos (by omega), show (0 * 2 ^ 23 + n) % 2 ^ 23 = n by omega]
    norm_num
  rw [if_neg (by omega)]
  rcases Nat.lt_or_ge n (2 ^ 24) with hlt | hcarry
  · rw [show 2 ^ 23 + (k * 2 ^ 23 + n) % 2 ^ 23 = n by omega, show (k * 2 ^ 23 + n) / 2 ^ 23 = k + 1 by omega]
    congr 2
    push_cast
    ring
  · obtain rfl : n = 2 ^ 24 := by omega
    rw [show 2 ^ 23 + (k * 2 ^ 23 + 2 ^ 24) % 2 ^ 23 = 2 ^ 23 by omega,
      show (k * 2 ^ 23 + 2 ^ 24) / 2 ^ 23 = k + 2 by omega,
      show (((k + 2 : ℕ) : ℤ) - 150) = ((k : ℤ) - 149) + 1 by push_cast; ring, zpow_add_one₀ two_ne_zero]
    push_cast
    ring

/-- Every magnitude is so many units of a last place, with the leading 1 unless it is subnormal. -/
theorem exists_units (p : Nat) : ∃ k n, p = k * 2 ^ 23 + n ∧ n < 2 ^ 24 ∧ (k = 0 ∨ 2 ^ 23 ≤ n) :=
  ⟨p / 2 ^ 23 - 1, p - (p / 2 ^ 23 - 1) * 2 ^ 23, by omega, by omega, by omega⟩

/-! ### The closed form -/

/-- The pattern q stands for q units of 2^-149, whether it is subnormal or has carried to 2^23 (R214). -/
theorem binary32Value_zeroExponentQ (f : BitVec 23) :
    binary32Value ((zeroExponentQ f).setWidth 32) = ((zeroExponentQ f).toNat : ℚ) * (2 : ℚ) ^ (-149 : ℤ) := by
  obtain ⟨-, hle, -⟩ := zeroExponentQ_bounds f
  have hpat : ((zeroExponentQ f).setWidth 32).toNat = false.toNat * 2 ^ 31 + (zeroExponentQ f).toNat := by
    rw [BitVec.toNat_setWidth, Bool.toNat_false]
    omega
  have hunits := magnitudeValue_units (k := 0) (n := (zeroExponentQ f).toNat) (by omega) (.inl rfl)
  rw [(binary32Value_eq (by omega) hpat).2]
  simpa using hunits

/-- Settles O30: the classes of exponent field 1 to 254 and of the infinities are the patterns that decode to
themselves; exponent field 0 gives the sign over q. -/
theorem fdecodeClosedForm : Obligations.FdecodeClosedForm := by
  refine ⟨fun a b => ?_, fun f => ?_, by decide, by decide⟩
  · have he8 := (a.extractLsb' 23 8).isLt
    have hnan := isNaNInput_iff a
    dsimp only
    split_ifs with hnormal hinf hNaN
    · have h := gives_fdecode_of_not_isNaNInput (a := a) (by rw [hnan]; omega) b
      rwa [rne32_generalFormula_eq_self (by omega) (by rw [hnan]; omega)] at h
    · obtain ⟨h255, hf⟩ := hinf
      have hno : ¬ isNaNInput a = true := by
        rw [hnan]
        exact fun h => h.2 hf
      have h := gives_fdecode_of_not_isNaNInput hno b
      rw [rne32_generalFormula_eq_self (by omega) hno] at h
      refine ⟨?_, h⟩
      have hself := signBit_or_fields a
      rw [h255, show fractionField a = 0 from hf] at hself
      rw [← hself]
      cases a.getLsbD 31
      · exact .inl rfl
      · exact .inr rfl
    · exact gives_fdecode_of_isNaNInput (hnan.mpr ⟨hNaN, fun hf => hinf ⟨hNaN, hf⟩⟩) b
    · have h := gives_fdecode_of_not_isNaNInput (a := a) (by rw [hnan]; omega) b
      rwa [rne32_generalFormula_zeroExponent (by omega)] at h
  · have hf := f.isLt
    obtain ⟨hge, hle, hcarry⟩ := zeroExponentQ_bounds f
    rw [toNat_halfSignificand]
    refine ⟨by omega, by omega, hge, hle, ?_, binary32Value_zeroExponentQ f⟩
    rw [← BitVec.toNat_inj, ← BitVec.toNat_inj]
    exact hcarry

/-! ### The zeros, the denormals and the infinities -/

theorem decodeFloatBits_zero_and_denormals :
    decodeFloatBits 0x00000000 = 0x00400000 ∧ decodeFloatBits 0x80000000 = 0x80400000 ∧
      decodeFloatBits 0x00000001 = 0x00400000 ∧ decodeFloatBits 0x007FFFFF = 0x00800000 := by
  decide

/-- A subnormal pattern with fraction field 2^22 alone stands for 2^-127, with its sign. -/
theorem binary32Value_denormal (neg : Bool) :
    binary32Value (signBit neg ||| BitVec.ofNat 32 0x400000) =
      if neg then -(2 : ℚ) ^ (-127 : ℤ) else (2 : ℚ) ^ (-127 : ℤ) := by
  have hunits : magnitudeValue 0x400000 = (2 : ℚ) ^ (-127 : ℤ) := by
    have h := magnitudeValue_units (k := 0) (n := 0x400000) (by omega) (.inl rfl)
    norm_num at h ⊢
    exact h
  rw [(binary32Value_eq (by omega) (toNat_signBit_or neg (by omega))).2, hunits]

/-- The infinity patterns take the general formula: sign * 2^128 (R216). -/
theorem generalFormula_value_infinity {a : DWord} (he : (a.extractLsb' 23 8).toNat = 255) (hf : fractionField a = 0) :
    (generalFormula a).value = (if a.getLsbD 31 then -1 else 1) * (2 : ℚ) ^ (128 : ℤ) := by
  have hm : mantissaSum a = 2 ^ 23 := by
    rw [mantissaSum_eq, hf]
    rfl
  rw [generalFormula_value, rawExponent_eq, he, hm]
  norm_num

/-- Settles O31, from the values of the decoder and of its numbers at the inputs named. -/
theorem fdecodeZeroDenormalAndInfinityInputs : Obligations.FdecodeZeroDenormalAndInfinityInputs := by
  obtain ⟨hzero, hnegZero, hone, hmax⟩ := decodeFloatBits_zero_and_denormals
  refine ⟨fun b => ⟨hzero ▸ gives_fdecode _ b, binary32Value_denormal false, hnegZero ▸ gives_fdecode _ b,
    binary32Value_denormal true, hone ▸ gives_fdecode _ b, hmax ▸ gives_fdecode _ b⟩, fun neg => ?_, ?_⟩
  · cases neg <;> decide
  · have hfields : ∀ a ∈ [0x7F800000#32, 0xFF800000#32], a.extractLsb' 23 8 = 0xFF#8 ∧ fractionField a = 0 := by
      simp only [List.forall_mem_cons, List.not_mem_nil, false_implies, implies_true, and_true]
      decide
    intro a ha
    obtain ⟨hexp, hf⟩ := hfields a ha
    have he : (a.extractLsb' 23 8).toNat = 255 := congrArg BitVec.toNat hexp
    have hnan : ¬ isNaNInput a = true := fun h => ((isNaNInput_iff a).mp h).2 hf
    refine ⟨by simpa using hnan, generalFormula_value_infinity he hf, fun b => ?_⟩
    have h := gives_fdecode_of_not_isNaNInput hnan b
    rwa [rne32_generalFormula_eq_self (by omega) hnan] at h

end Sys2Proof.Machine
end

section
/-! SUPPORT. The rounding: the units of the last place are the nearest integer, ties to even, and no other pattern's
number is nearer than theirs (00_scope.md R12, 43_float.md R213). -/

namespace Sys2Proof.Machine

/-! ### The nearest integer -/

/-- `n` is `x` rounded to the nearest integer, a tie going to the even one (R12). -/
def RoundsTo (x : ℚ) (n : ℕ) : Prop := |x - n| ≤ 1 / 2 ∧ (|x - n| = 1 / 2 → n % 2 = 0)

/-- No integer is nearer than the one rounded to, and if another is as near, the one rounded to is even. -/
theorem RoundsTo.nearest {x : ℚ} {n : ℕ} (h : RoundsTo x n) (m : ℕ) :
    |x - n| ≤ |x - m| ∧ (|x - n| = |x - m| → m ≠ n → n % 2 = 0) := by
  obtain ⟨hle, htie⟩ := h
  rcases eq_or_ne m n with rfl | hne
  · exact ⟨le_rfl, fun _ hne => absurd rfl hne⟩
  have hone : (1 : ℚ) ≤ |(m : ℚ) - n| := by
    have hint : (1 : ℤ) ≤ |(m : ℤ) - n| := Int.one_le_abs (by omega)
    exact_mod_cast hint
  have htriangle : |(m : ℚ) - n| ≤ |x - m| + |x - n| := by
    have h := abs_sub_le (m : ℚ) x n
    rwa [abs_sub_comm (m : ℚ) x] at h
  exact ⟨by linarith, fun heq _ => htie (by linarith)⟩

/-- Rounding does not cross an integer from above. -/
theorem RoundsTo.le_of_le {x : ℚ} {n m : ℕ} (h : RoundsTo x n) (hm : (m : ℚ) ≤ x) : m ≤ n := by
  have hle := (abs_le.mp h.1).2
  have hlt : (m : ℚ) < (n + 1 : ℕ) := by push_cast; linarith
  exact Nat.lt_succ_iff.mp (Nat.cast_lt.mp hlt)

/-- Rounding does not cross an integer from below. -/
theorem RoundsTo.le_of_lt {x : ℚ} {n m : ℕ} (h : RoundsTo x n) (hm : x < m) : n ≤ m := by
  have hle := (abs_le.mp h.1).1
  have hlt : (n : ℚ) < (m + 1 : ℕ) := by push_cast; linarith
  exact Nat.lt_succ_iff.mp (Nat.cast_lt.mp hlt)

/-- The middle below an even integer rounds up to it, and what lies below the middle to less. -/
theorem RoundsTo.lt_even_iff {x : ℚ} {n m : ℕ} (h : RoundsTo x n) (hm : m % 2 = 0) : n < m ↔ x < m - 1 / 2 := by
  obtain ⟨hle, htie⟩ := h
  obtain ⟨hlow, hhigh⟩ := abs_le.mp hle
  constructor
  · intro hlt
    have hcast : (n : ℚ) + 1 ≤ m := by exact_mod_cast hlt
    refine lt_of_le_of_ne (by linarith) fun heq => ?_
    have hhalf : x - n = 1 / 2 := by linarith
    have heven := htie (by rw [hhalf]; norm_num)
    have hnext : (m : ℚ) = (n + 1 : ℕ) := by push_cast; linarith
    have hsucc := Nat.cast_injective hnext
    omega
  · intro hlt
    have hcast : (n : ℚ) < m := by linarith
    exact_mod_cast hcast

/-- An integer rounds to itself. -/
theorem roundsTo_self (n : ℕ) : RoundsTo n n := by
  rw [RoundsTo, sub_self, abs_zero]
  norm_num

/-- The rounded quotient of the model rounds the quotient (R12). -/
theorem roundsTo_shiftRightNearestEven (m d : ℕ) : RoundsTo ((m : ℚ) / 2 ^ d) (shiftRightNearestEven m d) := by
  obtain ⟨hup, hdown, htie⟩ := shiftRightNearestEven_spec m d
  generalize shiftRightNearestEven m d = n at *
  have hpos : (0 : ℚ) < 2 ^ d := by positivity
  obtain ⟨x, hx⟩ : ∃ x : ℚ, x = m / 2 ^ d := ⟨_, rfl⟩
  have hm : (m : ℚ) = x * 2 ^ d := by rw [hx, div_mul_cancel₀ _ hpos.ne']
  have hupQ : 2 * (m : ℚ) ≤ (2 * n + 1) * 2 ^ d := by exact_mod_cast hup
  have hdownQ : 2 * ((n : ℚ) * 2 ^ d) ≤ 2 * m + 2 ^ d := by exact_mod_cast hdown
  have hxup : 2 * x ≤ 2 * n + 1 := le_of_mul_le_mul_right (by linarith) hpos
  have hxdown : 2 * (n : ℚ) ≤ 2 * x + 1 := le_of_mul_le_mul_right (by linarith) hpos
  rw [← hx]
  refine ⟨abs_le.mpr ⟨by linarith, by linarith⟩, fun habs => htie ?_⟩
  rcases eq_or_eq_neg_of_abs_eq habs with habove | hbelow
  · left
    have h : 2 * (m : ℚ) = (2 * n + 1) * 2 ^ d := by
      rw [hm, show x = n + 1 / 2 by linarith]
      ring
    exact_mod_cast h
  · right
    have h : 2 * ((n : ℚ) * 2 ^ d) = 2 * m + 2 ^ d := by
      rw [hm, show x = n - 1 / 2 by linarith]
      ring
    exact_mod_cast h

/-- The model's units of a number are the number of units, rounded (R12). -/
theorem roundsTo_inUnits (mag : ℕ) (exp quantum : ℤ) :
    RoundsTo (mag * (2 : ℚ) ^ (exp - quantum)) (inUnits mag exp quantum) := by
  unfold inUnits
  split_ifs with hexact
  · obtain ⟨k, hk⟩ : ∃ k : ℕ, exp - quantum = k := ⟨(exp - quantum).toNat, by omega⟩
    rw [hk, Int.toNat_natCast, zpow_natCast, Nat.shiftLeft_eq]
    exact_mod_cast roundsTo_self (mag * 2 ^ k)
  · obtain ⟨d, hd⟩ : ∃ d : ℕ, quantum - exp = d := ⟨(quantum - exp).toNat, by omega⟩
    rw [show exp - quantum = -(d : ℤ) by omega, hd, Int.toNat_natCast, zpow_neg, zpow_natCast, ← div_eq_mul_inv]
    exact roundsTo_shiftRightNearestEven mag d

/-! ### The units of a magnitude -/

/-- `n` is the magnitude `v` in units of the last place `k - 149`, rounded: the last place is that of the subnormal values,
or `v` has its leading bit 23 places above it (R12). -/
structure RoundedUnits (v : ℚ) (k n : ℕ) : Prop where
  pos : 0 < v
  rounds : RoundsTo (v / (2 : ℚ) ^ ((k : ℤ) - 149)) n
  lt : v < 2 ^ 24 * (2 : ℚ) ^ ((k : ℤ) - 149)
  normal : k = 0 ∨ 2 ^ 23 * (2 : ℚ) ^ ((k : ℤ) - 149) ≤ v

/-- The model's last place and units of a magnitude are such units. -/
theorem roundedUnits_lastPlace {mag : ℕ} (hpos : 0 < mag) (exp : ℤ) :
    RoundedUnits (mag * (2 : ℚ) ^ exp) (lastPlace mag exp + 149).toNat (inUnits mag exp (lastPlace mag exp)) := by
  have hlow : -149 ≤ lastPlace mag exp := le_max_right _ _
  have hlead : (Nat.log2 mag : ℤ) + exp - 23 ≤ lastPlace mag exp := le_max_left _ _
  have hcase : lastPlace mag exp = -149 ∨ lastPlace mag exp = (Nat.log2 mag : ℤ) + exp - 23 :=
    (max_choice _ _).symm
  have hround := roundsTo_inUnits mag exp (lastPlace mag exp)
  generalize lastPlace mag exp = q at *
  have hmagLow : (2 : ℚ) ^ (Nat.log2 mag : ℤ) ≤ mag := by
    rw [zpow_natCast]
    exact_mod_cast Nat.log2_self_le hpos.ne'
  have hmagHigh : (mag : ℚ) < (2 : ℚ) ^ ((Nat.log2 mag : ℤ) + 1) := by
    rw [← Nat.cast_succ, zpow_natCast]
    exact_mod_cast Nat.lt_log2_self
  have hexp : (0 : ℚ) < 2 ^ exp := by positivity
  have hq : (((q + 149).toNat : ℕ) : ℤ) - 149 = q := by omega
  constructor
  · positivity
  · rwa [hq, mul_div_assoc, ← zpow_sub₀ two_ne_zero]
  · rw [hq]
    calc (mag : ℚ) * 2 ^ exp < 2 ^ ((Nat.log2 mag : ℤ) + 1) * 2 ^ exp := mul_lt_mul_of_pos_right hmagHigh hexp
      _ = 2 ^ ((Nat.log2 mag : ℤ) + 1 + exp) := (zpow_add₀ two_ne_zero _ _).symm
      _ ≤ 2 ^ (24 + q) := zpow_le_zpow_right₀ one_le_two (by omega)
      _ = 2 ^ 24 * 2 ^ q := zpow_add₀ two_ne_zero 24 q
  · rw [hq]
    refine hcase.imp (fun h => by omega) fun h => ?_
    calc (2 : ℚ) ^ 23 * 2 ^ q = 2 ^ (23 + q) := (zpow_add₀ two_ne_zero 23 q).symm
      _ = 2 ^ ((Nat.log2 mag : ℤ) + exp) := by rw [h]; congr 1; ring
      _ = 2 ^ (Nat.log2 mag : ℤ) * 2 ^ exp := zpow_add₀ two_ne_zero _ _
      _ ≤ mag * 2 ^ exp := mul_le_mul_of_nonneg_right hmagLow hexp.le

namespace RoundedUnits

variable {v : ℚ} {k n : ℕ}

/-- Rounded units carry to 2^24 at most. -/
theorem le (h : RoundedUnits v k n) : n ≤ 2 ^ 24 := by
  have hunit : (0 : ℚ) < (2 : ℚ) ^ ((k : ℤ) - 149) := by positivity
  refine h.rounds.le_of_lt ?_
  rw [div_lt_iff₀ hunit]
  exact_mod_cast h.lt

/-- Rounding keeps the leading 1. -/
theorem leading (h : RoundedUnits v k n) : k = 0 ∨ 2 ^ 23 ≤ n := by
  have hunit : (0 : ℚ) < (2 : ℚ) ^ ((k : ℤ) - 149) := by positivity
  refine h.normal.imp_right fun hnormal => h.rounds.le_of_le ?_
  rw [le_div_iff₀ hunit]
  exact_mod_cast hnormal

/-- The pattern of the units stands for them. -/
theorem magnitudeValue_eq (h : RoundedUnits v k n) :
    magnitudeValue (k * 2 ^ 23 + n) = n * (2 : ℚ) ^ ((k : ℤ) - 149) :=
  magnitudeValue_units h.le h.leading

/-- The units stay below the infinity exactly for the magnitudes below the middle between the largest finite value and
2^128 (R12). -/
theorem finite_iff (h : RoundedUnits v k n) :
    k * 2 ^ 23 + n < 255 * 2 ^ 23 ↔ v < ((2 ^ 25 - 1 : ℕ) : ℚ) * (2 : ℚ) ^ (103 : ℤ) := by
  have hle := h.le
  have hlead := h.leading
  rcases Nat.lt_trichotomy k 253 with hlt | rfl | hgt
  · have hbound : v < ((2 ^ 25 - 1 : ℕ) : ℚ) * (2 : ℚ) ^ (103 : ℤ) :=
      calc v < 2 ^ 24 * (2 : ℚ) ^ ((k : ℤ) - 149) := h.lt
        _ ≤ 2 ^ 24 * (2 : ℚ) ^ (103 : ℤ) :=
          mul_le_mul_of_nonneg_left (zpow_le_zpow_right₀ one_le_two (by omega)) (by positivity)
        _ ≤ ((2 ^ 25 - 1 : ℕ) : ℚ) * (2 : ℚ) ^ (103 : ℤ) := by
          gcongr
          norm_num
    exact ⟨fun _ => hbound, fun _ => by omega⟩
  · have hunits := h.rounds.lt_even_iff (m := 2 ^ 24) (by norm_num)
    rw [show 253 * 2 ^ 23 + n < 255 * 2 ^ 23 ↔ n < 2 ^ 24 by omega, hunits, div_lt_iff₀ (by positivity)]
    norm_num
  · have hbound : ((2 ^ 25 - 1 : ℕ) : ℚ) * (2 : ℚ) ^ (103 : ℤ) ≤ v :=
      calc ((2 ^ 25 - 1 : ℕ) : ℚ) * (2 : ℚ) ^ (103 : ℤ) ≤ 2 ^ 23 * (2 : ℚ) ^ (105 : ℤ) := by norm_num
        _ ≤ 2 ^ 23 * (2 : ℚ) ^ ((k : ℤ) - 149) :=
          mul_le_mul_of_nonneg_left (zpow_le_zpow_right₀ one_le_two (by omega)) (by positivity)
        _ ≤ v := h.normal.resolve_left (by omega)
    exact ⟨fun _ => by omega, fun hlt => absurd hlt (not_lt.mpr hbound)⟩

/-- Among the multiples of the unit none is nearer, and another as near leaves the units even. -/
theorem nearest_multiple (h : RoundedUnits v k n) (m : ℕ) :
    |v - n * (2 : ℚ) ^ ((k : ℤ) - 149)| ≤ |v - m * (2 : ℚ) ^ ((k : ℤ) - 149)| ∧
    (|v - n * (2 : ℚ) ^ ((k : ℤ) - 149)| = |v - m * (2 : ℚ) ^ ((k : ℤ) - 149)| →
      (m : ℚ) * (2 : ℚ) ^ ((k : ℤ) - 149) ≠ n * (2 : ℚ) ^ ((k : ℤ) - 149) → n % 2 = 0) := by
  have hunit : (0 : ℚ) < (2 : ℚ) ^ ((k : ℤ) - 149) := by positivity
  obtain ⟨hle, htie⟩ := h.rounds.nearest m
  generalize (2 : ℚ) ^ ((k : ℤ) - 149) = u at *
  have hscale : ∀ j : ℕ, |v - j * u| = |v / u - j| * u := fun j => by
    rw [← abs_of_pos hunit, ← abs_mul, abs_of_pos hunit, sub_mul, div_mul_cancel₀ _ hunit.ne']
  rw [hscale, hscale]
  refine ⟨mul_le_mul_of_nonneg_right hle hunit.le, fun heq hne => htie (mul_right_cancel₀ hunit.ne' heq) ?_⟩
  rintro rfl
  exact hne rfl

/-- No magnitude of a pattern is nearer than the rounded units, and if another is as near, the units are even. A pattern
with a smaller last place lies below all magnitudes with the leading 1, and so farther than 2^23 units. -/
theorem nearest (h : RoundedUnits v k n) (p : ℕ) :
    |v - magnitudeValue (k * 2 ^ 23 + n)| ≤ |v - magnitudeValue p| ∧
    (|v - magnitudeValue (k * 2 ^ 23 + n)| = |v - magnitudeValue p| →
      magnitudeValue p ≠ magnitudeValue (k * 2 ^ 23 + n) → n % 2 = 0) := by
  obtain ⟨k', n', rfl, hn', hlead'⟩ := exists_units p
  rw [h.magnitudeValue_eq, magnitudeValue_units hn'.le hlead']
  rcases Nat.lt_or_ge k' k with hbelow | habove
  · have hnormal := h.normal.resolve_left (by omega)
    have hfar : (n' : ℚ) * (2 : ℚ) ^ ((k' : ℤ) - 149) < 2 ^ 23 * (2 : ℚ) ^ ((k : ℤ) - 149) :=
      calc (n' : ℚ) * (2 : ℚ) ^ ((k' : ℤ) - 149) < 2 ^ 24 * (2 : ℚ) ^ ((k' : ℤ) - 149) := by
            gcongr
            exact_mod_cast hn'
        _ ≤ 2 ^ 24 * (2 : ℚ) ^ ((k : ℤ) - 150) :=
          mul_le_mul_of_nonneg_left (zpow_le_zpow_right₀ one_le_two (by omega)) (by positivity)
        _ = 2 ^ 23 * (2 : ℚ) ^ ((k : ℤ) - 149) := by
          rw [show (k : ℤ) - 149 = (k : ℤ) - 150 + 1 by ring, zpow_add_one₀ two_ne_zero]
          ring
    have hlt : |v - n * (2 : ℚ) ^ ((k : ℤ) - 149)| < |v - n' * (2 : ℚ) ^ ((k' : ℤ) - 149)| :=
      calc |v - n * (2 : ℚ) ^ ((k : ℤ) - 149)| ≤ |v - (2 ^ 23 : ℕ) * (2 : ℚ) ^ ((k : ℤ) - 149)| :=
            (h.nearest_multiple (2 ^ 23)).1
        _ = v - 2 ^ 23 * (2 : ℚ) ^ ((k : ℤ) - 149) := by
          push_cast
          exact abs_of_nonneg (by linarith)
        _ < v - n' * (2 : ℚ) ^ ((k' : ℤ) - 149) := by linarith
        _ ≤ |v - n' * (2 : ℚ) ^ ((k' : ℤ) - 149)| := le_abs_self _
    exact ⟨hlt.le, fun heq => absurd heq hlt.ne⟩
  · have hmultiple : (n' : ℚ) * (2 : ℚ) ^ ((k' : ℤ) - 149) =
        ((n' * 2 ^ (k' - k) : ℕ) : ℚ) * (2 : ℚ) ^ ((k : ℤ) - 149) := by
      rw [show (k' : ℤ) - 149 = ((k' - k : ℕ) : ℤ) + ((k : ℤ) - 149) by omega, zpow_add₀ two_ne_zero, zpow_natCast]
      push_cast
      ring
    rw [hmultiple]
    exact h.nearest_multiple _

end RoundedUnits

/-! ### Signs -/

theorem magnitudeValue_zero : magnitudeValue 0 = 0 := by simp [magnitudeValue]

theorem magnitudeValue_nonneg (n : ℕ) : 0 ≤ magnitudeValue n := by
  unfold magnitudeValue
  split_ifs <;> positivity

/-- A number with a sign. -/
def signed (neg : Bool) (v : ℚ) : ℚ := if neg then -v else v

/-- Numbers of one sign are as far apart as their magnitudes. -/
theorem abs_signed_sub_signed (neg : Bool) (v w : ℚ) : |signed neg v - signed neg w| = |v - w| := by
  cases neg
  · rfl
  · rw [signed, signed, if_pos rfl, if_pos rfl, neg_sub_neg, abs_sub_comm]

/-- Numbers of opposite signs are as far apart as the sum of their magnitudes. -/
theorem abs_signed_sub_signed_not (neg : Bool) {v w : ℚ} (hv : 0 ≤ v) (hw : 0 ≤ w) :
    |signed neg v - signed (!neg) w| = v + w := by
  cases neg
  · simpa [signed] using abs_of_nonneg (add_nonneg hv hw)
  · have h := abs_of_nonneg (add_nonneg hv hw)
    rw [← abs_neg, neg_add'] at h
    simpa [signed] using h

/-- What is nearest among the magnitudes is nearest among the numbers of both signs: one of the other sign is no nearer
than 0 is. -/
theorem RoundedUnits.nearest_signed {v : ℚ} {k n : ℕ} (h : RoundedUnits v k n) (neg neg' : Bool) (p : ℕ) :
    |signed neg v - signed neg (magnitudeValue (k * 2 ^ 23 + n))| ≤ |signed neg v - signed neg' (magnitudeValue p)| ∧
    (|signed neg v - signed neg (magnitudeValue (k * 2 ^ 23 + n))| = |signed neg v - signed neg' (magnitudeValue p)| →
      signed neg' (magnitudeValue p) ≠ signed neg (magnitudeValue (k * 2 ^ 23 + n)) → n % 2 = 0) := by
  rw [abs_signed_sub_signed]
  rcases eq_or_ne neg' neg with rfl | hne
  · rw [abs_signed_sub_signed]
    obtain ⟨hle, htie⟩ := h.nearest p
    exact ⟨hle, fun heq hne => htie heq fun hsame => hne (by rw [hsame])⟩
  · obtain rfl : neg' = !neg := Bool.eq_not.mpr hne
    have hp := magnitudeValue_nonneg p
    have hv := h.pos
    obtain ⟨hle, htie⟩ := h.nearest 0
    rw [magnitudeValue_zero, sub_zero, abs_of_pos hv] at hle htie
    rw [abs_signed_sub_signed_not neg hv.le hp]
    refine ⟨by linarith, fun heq hdiff => htie (by linarith) fun hzero => hdiff ?_⟩
    have hpzero : magnitudeValue p = 0 := by linarith
    rw [hpzero, ← hzero]
    cases neg <;> simp [signed]

/-! ### Patterns -/

theorem signed_zero (neg : Bool) : signed neg 0 = 0 := by cases neg <;> simp [signed]

/-- Every pattern is a sign and the 31 bits below it. -/
theorem exists_sign_magnitude (p : DWord) : ∃ (neg : Bool) (n : ℕ), n < 2 ^ 31 ∧ p.toNat = neg.toNat * 2 ^ 31 + n :=
  have he := (p.extractLsb' 23 8).isLt
  have hf := (fractionField p).isLt
  ⟨_, _, by omega, toNat_eq_fields p⟩

/-- A pattern is finite when the bits below its sign lie below the infinity's. -/
theorem finite32_iff {p : DWord} {neg : Bool} {n : ℕ} (hn : n < 2 ^ 31) (hp : p.toNat = neg.toNat * 2 ^ 31 + n) :
    Finite32 p ↔ n < 255 * 2 ^ 23 := by
  have hfield : (p.extractLsb' 23 8).toNat = n / 2 ^ 23 := by
    rw [BitVec.extractLsb'_toNat, Nat.shiftRight_eq_div_pow, hp]
    omega
  rw [Finite32, Ne, ← BitVec.toNat_inj, hfield]
  have h255 : (0xFF#8).toNat = 255 := rfl
  rw [h255]
  omega

/-- A number is its magnitude with its sign. -/
theorem ExactReal.value_eq_signed (x : ExactReal) : x.value = signed x.neg (x.mag * (2 : ℚ) ^ x.exp) := rfl

/-- Settles O33: the rounding's pattern is the sign over the rounded units of the last place, cut at the infinity. -/
theorem roundingIsNearestEven : Obligations.RoundingIsNearestEven := by
  intro x hpos
  have hunits := roundedUnits_lastPlace hpos x.exp
  have hbits := magnitudeBits_eq_min x.mag x.exp
  generalize (lastPlace x.mag x.exp + 149).toNat = k at *
  generalize inUnits x.mag x.exp (lastPlace x.mag x.exp) = n at *
  have hlt : magnitudeBits x.mag x.exp < 2 ^ 31 := by omega
  have hpat : (rne32 x).toNat = x.neg.toNat * 2 ^ 31 + magnitudeBits x.mag x.exp := by
    rw [rne32_of_pos hpos, toNat_signBit_or _ hlt]
  have hfinite : Finite32 (rne32 x) ↔ k * 2 ^ 23 + n < 255 * 2 ^ 23 := by
    rw [finite32_iff hlt hpat]
    omega
  have habs : |x.value| = x.mag * (2 : ℚ) ^ x.exp := by
    have h := abs_signed_sub_signed x.neg (x.mag * (2 : ℚ) ^ x.exp) 0
    rwa [signed_zero, sub_zero, sub_zero, abs_of_pos hunits.pos] at h
  obtain ⟨hsign, hvalue⟩ := binary32Value_eq hlt hpat
  refine ⟨hsign, ?_, fun hinf => ?_, fun hfin p _ => ?_⟩
  · rw [hfinite, hunits.finite_iff, habs]
  · have htop : magnitudeBits x.mag x.exp = 255 * 2 ^ 23 := by
      rw [hfinite] at hinf
      omega
    rw [rne32_of_pos hpos, htop]
    cases x.neg <;> rfl
  · have hsame : magnitudeBits x.mag x.exp = k * 2 ^ 23 + n := by
      rw [hfinite] at hfin
      omega
    obtain ⟨neg', m, hm, hp⟩ := exists_sign_magnitude p
    obtain ⟨hle, htie⟩ := hunits.nearest_signed x.neg neg' m
    rw [hvalue, hsame, (binary32Value_eq hm hp).2]
    refine ⟨hle, fun heq hne => ?_⟩
    have heven := htie heq hne
    rw [getLsbD_zero_eq, hpat, hsame, decide_eq_false_iff_not]
    omega

end Sys2Proof.Machine
end

section
/-! SUPPORT. What a line of the host assigns: it presents the pattern of each literal and takes the named result of the
response (30_encoding.md R73, R74). -/

namespace Sys2Proof.Machine

/-! ### Literals -/

/-- An unsigned literal presents its pattern (R73). -/
theorem pattern_literal_toNat (vars : HostVars) (a : DWord) : (HostOperand.literal a.toNat).pattern vars = some a := by
  rw [HostOperand.pattern, hostPattern, BitVec.ofInt_natCast, BitVec.ofNat_toNat, BitVec.setWidth_eq]

/-- A signed literal presents its two's-complement pattern (R67, R73). -/
theorem pattern_literal_toInt (vars : HostVars) (b : DWord) : (HostOperand.literal b.toInt).pattern vars = some b := by
  rw [HostOperand.pattern, hostPattern, BitVec.ofInt_toInt]

/-! ### Lines -/

/-- A line whose command is answered with ILL = 0 assigns the results its operation delivers, name by name (R73). -/
theorem runLine_of_serve {l : Line} {vars : HostVars} {c : Command} {s : State} {r : Response}
    (hc : l.command vars = some c) (hr : (serve c s).response = some r) (hill : r.ill = false) :
    (runLine l vars s).1 = l.dests.zip (l.op.result.values r) ++ vars := by
  simp [runLine, hc, hr, hill]

/-- A pseudo-instruction on operands that present `a` and `b` assigns what it takes of the response its operation gives to
them (R74). -/
theorem runLine_pseudo {p : Pseudo} {oa ob : HostOperand} {a b : DWord} {r : Response} (ha : oa.pattern [] = some a)
    (hb : ob.pattern [] = some b) (h : Gives p.expand.1 a b r) (hill : r.ill = false) (dests : List String)
    (s : State) : (runLine ⟨dests, .pseudo p, oa, ob⟩ [] s).1 = dests.zip (p.expand.2.values r) := by
  have hc : (⟨dests, .pseudo p, oa, ob⟩ : Line).command [] = some ⟨encode p.expand.1, a, b⟩ := by
    simp [Line.command, ha, hb, Operation.word]
  have hserve := serve_of_decode_ok (c := ⟨encode p.expand.1, a, b⟩) (decode_encode _) h s
  rw [runLine_of_serve hc (by rw [hserve, State.answer_response]) hill, List.append_nil, Operation.result]

/-- A form on two literals assigns the result it takes of the one response its operation gives. -/
theorem exists_gives_runLine (p : Pseudo) (a b : DWord) (s : State) :
    ∃ r, Gives p.expand.1 a b r ∧
      (runLine ⟨["x"], .pseudo p, .literal a.toNat, .literal b.toInt⟩ [] s).1 = ["x"].zip (p.expand.2.values r) := by
  obtain ⟨r, hr, hill, -⟩ := unnamedPortsHaveFixedValues p.expand.1 a b
  exact ⟨r, hr, runLine_pseudo (pattern_literal_toNat [] a) (pattern_literal_toInt [] b) hr hill _ s⟩

/-- A form that takes Y assigns Y. -/
theorem exists_gives_runLine_fromY {p : Pseudo} (hp : p.expand.2 = .fromY) (a b : DWord) (s : State) :
    ∃ r, Gives p.expand.1 a b r ∧
      (runLine ⟨["x"], .pseudo p, .literal a.toNat, .literal b.toInt⟩ [] s).1 = [("x", r.y)] := by
  obtain ⟨r, hr, hline⟩ := exists_gives_runLine p a b s
  rw [hp] at hline
  exact ⟨r, hr, hline⟩

/-- A half form, whose second operand is omitted, assigns the half it takes of the decomposed literal. -/
theorem runLine_half {p : Pseudo} {n h : Nat} {high low : BitVec n → BitVec h}
    (hd : DecomposesYZ p.expand.1 n h high low) (a : DWord) (s : State) :
    (runLine ⟨["x"], .pseudo p, .literal a.toNat, .omitted⟩ [] s).1 =
      ["x"].zip (p.expand.2.values
        (replyYZ ((high (a.setWidth n)).setWidth 32) ((low (a.setWidth n)).setWidth 32))) :=
  runLine_pseudo (pattern_literal_toNat [] a) rfl (hd a 0) rfl _ s

theorem lowByte_setWidth (a : DWord) : lowByte (a.setWidth 16) = a.extractLsb' 0 8 :=
  BitVec.extractLsb'_setWidth_of_le (by omega)

theorem highByte_setWidth (a : DWord) : highByte (a.setWidth 16) = a.extractLsb' 8 8 :=
  BitVec.extractLsb'_setWidth_of_le (by omega)

/-- Settles O60: the expansions are those of the definition, and a line assigns what its form takes of the response. -/
theorem pseudoInstructionExpansions : Obligations.PseudoInstructionExpansions := by
  refine ⟨rfl, rfl, rfl, rfl, rfl, rfl, rfl, rfl, rfl, rfl, rfl, rfl, rfl, rfl, rfl, rfl, rfl, rfl, rfl, rfl, rfl, rfl,
    rfl, rfl, rfl, rfl, rfl, rfl, fun p => ⟨rfl, decode_encode _⟩, fun t a b s p hp => ?_,
    fun t a b s => exists_gives_runLine (.bitTest t) a b s, fun a s => ⟨?_, ?_, ?_, ?_⟩⟩
  · have hY : ∀ q ∈ [Pseudo.bset t, .bclr t, .not t, .rotl t, .rotr t, .rotlSign t, .rotrSign t],
        q.expand.2 = .fromY := by simp [Pseudo.expand]
    exact exists_gives_runLine_fromY (hY p hp) a b s
  · rw [← lowByte_setWidth]
    exact runLine_half (p := .lowbyte) decomposeW_decomposes a s
  · rw [← highByte_setWidth]
    exact runLine_half (p := .highbyte) decomposeW_decomposes a s
  · exact runLine_half (p := .lowword) decomposeD_decomposes a s
  · exact runLine_half (p := .highword) decomposeD_decomposes a s

end Sys2Proof.Machine
end
